-- ==== Sys2Proof/Word.lean ====
section
/-! DEFINITION. The bit-vector types of the block, one per width the spec names (00_scope.md R5, R6).
Every value is unsigned; no value is ever sign-extended (R6). -/

namespace Sys2Proof

/-- A general register, an immediate `kk`, a memory cell: 8 bits (10_state.md R21, 20_memory.md R40). -/
abbrev Byte := BitVec 8

/-- An instruction word, the program counter, a call stack entry: 16 bits (30_encoding.md R60, 10_state.md R23, R26). -/
abbrev Word := BitVec 16

/-- The number of a general register, the 4-bit fields `x` and `y` (30_encoding.md R61, R63). -/
abbrev RegIdx := BitVec 4

/-- A memory address and the `addr` operand: 12 bits (20_memory.md R40, 30_encoding.md R61). -/
abbrev Addr := BitVec 12

/-- The stack pointer: 5 bits (10_state.md R27). -/
abbrev StackPtr := BitVec 5

end Sys2Proof
end

