-- ==== Sys2Proof/Syntax.lean ====
section
/-! DEFINITION. The fifteen instructions, "the complete set the core must reproduce" (30_encoding.md R66), with their
operands as typed fields (R61, R62, R63). -/

namespace Sys2Proof

/-- One constructor per row of the opcode table (30_encoding.md R66), in its order. An operand's type has exactly the
values its field can hold, so every term is an instruction the encoding admits (R63). -/
inductive Instr where
  /-- HALT `0x0000` (41_system.md R100) -/
  | halt
  /-- CLEAR `0x00E0` (41_system.md R101) -/
  | clear
  /-- RETURN `0x00EE` (42_control_transfer.md R105) -/
  | ret
  /-- JUMP `0x1nnn` (42_control_transfer.md R106) -/
  | jump (addr : Addr)
  /-- CALL `0x2nnn` (42_control_transfer.md R107) -/
  | call (addr : Addr)
  /-- SKIP-EQ-IMM `0x3xkk` (43_skip.md R115) -/
  | skipEqImm (x : RegIdx) (kk : Byte)
  /-- SKIP-NEQ-IMM `0x4xkk` (43_skip.md R116) -/
  | skipNeqImm (x : RegIdx) (kk : Byte)
  /-- SKIP-EQ-REG `0x5xy0` (43_skip.md R117) -/
  | skipEqReg (x y : RegIdx)
  /-- LOAD-IMM `0x6xkk` (44_immediate.md R125) -/
  | loadImm (x : RegIdx) (kk : Byte)
  /-- ADD-IMM `0x7xkk` (44_immediate.md R126) -/
  | addImm (x : RegIdx) (kk : Byte)
  /-- LOAD-REG `0x8xy0` (45_alu_register.md R130) -/
  | loadReg (x y : RegIdx)
  /-- OR `0x8xy1` (45_alu_register.md R131) -/
  | orReg (x y : RegIdx)
  /-- AND `0x8xy2` (45_alu_register.md R132) -/
  | andReg (x y : RegIdx)
  /-- XOR `0x8xy3` (45_alu_register.md R133) -/
  | xorReg (x y : RegIdx)
  /-- ADD-REG `0x8xy4` (45_alu_register.md R134) -/
  | addReg (x y : RegIdx)
  deriving DecidableEq, Repr

/-- The names of the instructions, as the source's table gives them (30_encoding.md R66, R72). -/
inductive Mnemonic where
  | HALT | CLEAR | RETURN | JUMP | CALL | SKIP_EQ_IMM | SKIP_NEQ_IMM | SKIP_EQ_REG
  | LOAD_IMM | ADD_IMM | LOAD_REG | OR | AND | XOR | ADD_REG
  deriving DecidableEq, Repr

/-- Which row of the opcode table an instruction is. -/
def Instr.mnemonic : Instr → Mnemonic
  | .halt => .HALT
  | .clear => .CLEAR
  | .ret => .RETURN
  | .jump _ => .JUMP
  | .call _ => .CALL
  | .skipEqImm _ _ => .SKIP_EQ_IMM
  | .skipNeqImm _ _ => .SKIP_NEQ_IMM
  | .skipEqReg _ _ => .SKIP_EQ_REG
  | .loadImm _ _ => .LOAD_IMM
  | .addImm _ _ => .ADD_IMM
  | .loadReg _ _ => .LOAD_REG
  | .orReg _ _ => .OR
  | .andReg _ _ => .AND
  | .xorReg _ _ => .XOR
  | .addReg _ _ => .ADD_REG

end Sys2Proof
end

