-- ==== Sys2Proof/WellFormed.lean ====
section
/-! DEFINITION. The checks: which words are legal, by the match and mask columns of the opcode table (30_encoding.md R66),
and which source terms name an instruction (R72). A term of `Instr` needs no check of its own: its operands have exactly
the widths of their fields (R63). -/

namespace Sys2Proof

/-- The four formats (30_encoding.md R62). -/
inductive Format where
  /-- whole word -/
  | W
  /-- address -/
  | A
  /-- register, immediate -/
  | I
  /-- register, register -/
  | R
  deriving DecidableEq, Repr

/-- One row of the opcode table: name, format, match and mask (30_encoding.md R66). -/
structure OpcodeRow where
  mnemonic : Mnemonic
  format : Format
  pattern : Word
  mask : Word
  deriving DecidableEq, Repr

/-- The bits a format fixes (30_encoding.md R62: all 16, `op`, `op`, `op` and `n`). -/
def Format.fixedBits : Format → Word
  | .W => 0xFFFF
  | .A => 0xF000
  | .I => 0xF000
  | .R => 0xF00F

/-- The opcode table, row for row (30_encoding.md R66). -/
def opcodeTable : List OpcodeRow :=
  [⟨.HALT, .W, 0x0000, 0xFFFF⟩, ⟨.CLEAR, .W, 0x00E0, 0xFFFF⟩, ⟨.RETURN, .W, 0x00EE, 0xFFFF⟩,
   ⟨.JUMP, .A, 0x1000, 0xF000⟩, ⟨.CALL, .A, 0x2000, 0xF000⟩] ++
  [⟨.SKIP_EQ_IMM, .I, 0x3000, 0xF000⟩, ⟨.SKIP_NEQ_IMM, .I, 0x4000, 0xF000⟩, ⟨.SKIP_EQ_REG, .R, 0x5000, 0xF00F⟩,
   ⟨.LOAD_IMM, .I, 0x6000, 0xF000⟩, ⟨.ADD_IMM, .I, 0x7000, 0xF000⟩] ++
  [⟨.LOAD_REG, .R, 0x8000, 0xF00F⟩, ⟨.OR, .R, 0x8001, 0xF00F⟩, ⟨.AND, .R, 0x8002, 0xF00F⟩,
   ⟨.XOR, .R, 0x8003, 0xF00F⟩, ⟨.ADD_REG, .R, 0x8004, 0xF00F⟩]

/-- "A word w selects the row for which (w & mask) == match" (30_encoding.md R66). -/
def OpcodeRow.selects (r : OpcodeRow) (w : Word) : Bool := w &&& r.mask == r.pattern

/-- A row is well formed when its mask is its format's and its match has no bit outside it. -/
def OpcodeRow.wellFormed (r : OpcodeRow) : Bool :=
  r.mask == r.format.fixedBits && r.pattern &&& r.mask == r.pattern

/-- A word is legal when a row of the table selects it (30_encoding.md R66, R68). -/
def legalWord (w : Word) : Bool := opcodeTable.any (·.selects w)

/-- The format of each instruction (30_encoding.md R62). -/
def Mnemonic.format : Mnemonic → Format
  | .HALT => .W
  | .CLEAR => .W
  | .RETURN => .W
  | .JUMP => .A
  | .CALL => .A
  | .SKIP_EQ_IMM => .I
  | .SKIP_NEQ_IMM => .I
  | .SKIP_EQ_REG => .R
  | .LOAD_IMM => .I
  | .ADD_IMM => .I
  | .LOAD_REG => .R
  | .OR => .R
  | .AND => .R
  | .XOR => .R
  | .ADD_REG => .R

/-- An operand as it is written: `Vx`, or a numeral (30_encoding.md R72). The numbers are unchecked. -/
inductive SourceOperand where
  | reg (index : Nat)
  | num (value : Nat)
  deriving DecidableEq, Repr

/-- An instruction as it is written: a mnemonic and its operands, destination first (30_encoding.md R72). -/
structure SourceInstr where
  mnemonic : Mnemonic
  operands : List SourceOperand
  deriving DecidableEq, Repr

/-- The operands are those of the mnemonic's format, and each fits its field (30_encoding.md R72: register V0 to VF, `kk`
a numeral 0 to 255, `addr` a numeral 0 to 4095). -/
def SourceInstr.wellFormed (t : SourceInstr) : Bool :=
  match t.mnemonic.format, t.operands with
  | .W, [] => true
  | .A, [.num a] => decide (a ≤ 4095)
  | .I, [.reg x, .num k] => decide (x ≤ 15) && decide (k ≤ 255)
  | .R, [.reg x, .reg y] => decide (x ≤ 15) && decide (y ≤ 15)
  | _, _ => false

end Sys2Proof
end

