-- ==== Sys2Proof/Decode.lean ====
section
/-! DEFINITION. The decoder, total on any bytes and rejecting by name, and after it the encoder (30_encoding.md). The
decoder dispatches as 30_encoding.md R64 says (whole word, then `op`, then `n`); that it agrees with the match and mask
table of R66 is a statement, not its definition. -/

namespace Sys2Proof

/-- The word two consecutive bytes make, big-endian: the byte at the lower address is the more significant half
(20_memory.md R42). -/
def wordOfBytes (hi lo : Byte) : Word := hi ++ lo

/-- The more significant byte of a word: the one at the lower address (20_memory.md R42, 30_encoding.md R60). -/
def highByte (w : Word) : Byte := w.extractLsb' 8 8

/-- The less significant byte of a word: the one at the higher address (20_memory.md R42, 30_encoding.md R60). -/
def lowByte (w : Word) : Byte := w.extractLsb' 0 8

/-- The six fields of an instruction word (30_encoding.md R61). -/
structure Fields where
  op : BitVec 4
  x : RegIdx
  y : RegIdx
  n : BitVec 4
  kk : Byte
  addr : Addr
  deriving DecidableEq, Repr

/-- All six fields are extracted from every word, by fixed bit positions (30_encoding.md R61, 40_step_cycle.md R83). -/
def fields (w : Word) : Fields :=
  { op := w.extractLsb' 12 4, x := w.extractLsb' 8 4, y := w.extractLsb' 4 4, n := w.extractLsb' 0 4,
    kk := w.extractLsb' 0 8, addr := w.extractLsb' 0 12 }

/-- Why bytes are no instruction: the four ranges of 30_encoding.md R68, and a byte list that ends early. -/
inductive DecodeError where
  /-- family 0, none of the three literals -/
  | family0
  /-- family 5 with `n` not 0 (R69) -/
  | family5
  /-- family 8 with `n` in 5 to 0xF -/
  | family8
  /-- families 9 to 0xF -/
  | unassignedFamily
  /-- fewer than two bytes (30_encoding.md R60: every instruction is two bytes) -/
  | truncated
  deriving DecidableEq, Repr

/-- Family 0: the whole word is compared (30_encoding.md R64, R65). -/
def decodeFamily0 (w : Word) : Except DecodeError Instr :=
  if w = 0x0000 then .ok .halt
  else if w = 0x00E0 then .ok .clear
  else if w = 0x00EE then .ok .ret
  else .error .family0

/-- Family 5 requires `n` = 0 (30_encoding.md R69; the table wins over the prose, 90_conflicts.md C2). -/
def decodeFamily5 (f : Fields) : Except DecodeError Instr :=
  if f.n = 0 then .ok (.skipEqReg f.x f.y) else .error .family5

/-- Family 8 is sub-selected by `n` (30_encoding.md R64). -/
def decodeFamily8 (f : Fields) : Except DecodeError Instr :=
  if f.n = 0 then .ok (.loadReg f.x f.y)
  else if f.n = 1 then .ok (.orReg f.x f.y)
  else if f.n = 2 then .ok (.andReg f.x f.y)
  else if f.n = 3 then .ok (.xorReg f.x f.y)
  else if f.n = 4 then .ok (.addReg f.x f.y)
  else .error .family8

/-- The instruction a word is, or the range of illegal words it lies in (30_encoding.md R64, R68; 40_step_cycle.md R84). -/
def decodeWord (w : Word) : Except DecodeError Instr :=
  let f := fields w
  if f.op = 0x0 then decodeFamily0 w
  else if f.op = 0x1 then .ok (.jump f.addr)
  else if f.op = 0x2 then .ok (.call f.addr)
  else if f.op = 0x3 then .ok (.skipEqImm f.x f.kk)
  else if f.op = 0x4 then .ok (.skipNeqImm f.x f.kk)
  else if f.op = 0x5 then decodeFamily5 f
  else if f.op = 0x6 then .ok (.loadImm f.x f.kk)
  else if f.op = 0x7 then .ok (.addImm f.x f.kk)
  else if f.op = 0x8 then decodeFamily8 f
  else .error .unassignedFamily

/-- The instruction at the head of a list of bytes, in memory order, and the bytes after it (30_encoding.md R60). -/
def decode : List Byte → Except DecodeError (Instr × List Byte)
  | hi :: lo :: rest => (decodeWord (wordOfBytes hi lo)).map (·, rest)
  | _ => .error .truncated

/-- A word's bytes as memory holds them, the first at the lower address (20_memory.md R42). -/
def wordBytes (w : Word) : List Byte := [highByte w, lowByte w]

/-- The instruction the decoder reads from the table's word `w` of `nbits` bits (host interface): one 16-bit word, stored
big-endian; the bits above `nbits` are 0. -/
def decodeTableWord (nbits w : Nat) : Option Instr :=
  match decode (wordBytes (BitVec.ofNat 16 (w % 2 ^ nbits))) with
  | .ok (i, _) => some i
  | .error _ => none

/-- The word of an instruction, from the bits column of the opcode table (30_encoding.md R66, R72). -/
def encode : Instr → Word
  | .halt => 0x0000
  | .clear => 0x00E0
  | .ret => 0x00EE
  | .jump a => 0x1#4 ++ a
  | .call a => 0x2#4 ++ a
  | .skipEqImm x kk => 0x3#4 ++ x ++ kk
  | .skipNeqImm x kk => 0x4#4 ++ x ++ kk
  | .skipEqReg x y => 0x5#4 ++ x ++ y ++ 0#4
  | .loadImm x kk => 0x6#4 ++ x ++ kk
  | .addImm x kk => 0x7#4 ++ x ++ kk
  | .loadReg x y => 0x8#4 ++ x ++ y ++ 0#4
  | .orReg x y => 0x8#4 ++ x ++ y ++ 1#4
  | .andReg x y => 0x8#4 ++ x ++ y ++ 2#4
  | .xorReg x y => 0x8#4 ++ x ++ y ++ 3#4
  | .addReg x y => 0x8#4 ++ x ++ y ++ 4#4

end Sys2Proof
end

