-- ==== Sys2Proof/Config.lean ====
section
/-! DEFINITION. What is fixed for the hardware (00_scope.md R5), and the two parameters an implementation chooses, which
are opaque constants: no proof can see their values. -/

namespace Sys2Proof.Config

/-- FLAG: the general register that is the carry flag (00_scope.md R5, 10_state.md R22). -/
abbrev flagReg : RegIdx := 0xF

/-- PCMAX: the largest legal fetch address (00_scope.md R5, 10_state.md R23). -/
abbrev pcMax : Word := 4094

/-- The length of an instruction in bytes (00_scope.md R5, 30_encoding.md R60). -/
abbrev instrBytes : Word := 2

/-- NSTACK as a value of the stack pointer: the stack is full (00_scope.md R5, 10_state.md R27). -/
abbrev stackFull : StackPtr := 16

/-- What an address the host loaded nothing at reads as (10_state.md R33). -/
abbrev unloadedByte : Byte := 0x00

/-- ENTRY_OFFSET of `State.reset`. DESIGN CHOICE, unsafe (log entry 1): the spec leaves it open as an argument of
Construct (00_scope.md R5, 92_eei_decisions.md D14); 0x0000 is the entry of the spec's own scenario (95_test_vectors.md 1.7). -/
abbrev resetEntryOffset : Word := 0x0000

/-- Whether the embedding exposes the register probe between the steps of a run (60_exceptions.md R167,
93_implementation_defined.md U12): a parameter of the implementation (log entry 9). -/
opaque debugHook : Bool

/-- How many clock cycles beyond the first a step takes: the implementation's (93_implementation_defined.md U4). -/
opaque extraCyclesPerStep : Nat

/-- CYCLES_PER_STEP: at least 1, read by no rule and by no definition (00_scope.md R5, 70_reset_and_hazards.md R193;
log entry 11). -/
def cyclesPerStep : Nat := extraCyclesPerStep + 1

end Sys2Proof.Config
end

