-- ==== Sys2Proof/Machine/State.lean ====
section
/-! DEFINITION. The machine state, every element of 10_state.md R20, as plain data; why a step or a host operation
stops; and the state after reset. -/

namespace Sys2Proof.Machine

/-- Memory: the bytes that are not 0x00, with their addresses (20_memory.md R40). An address that is not listed reads as
0x00 (10_state.md R33: "zero-initialized if not explicitly loaded"). -/
abbrev Memory := List Host.Cell

/-- The canonical form: addresses strictly rising, all inside the 4096-byte space, and no entry that an unlisted address
would read as anyway; so equal memories are equal lists. -/
abbrev Memory.wf (m : Memory) : Prop :=
  List.Pairwise (fun c d : Host.Cell => c.1 < d.1) m ∧
    ∀ c ∈ m, c.1 < 4096 ∧ c.2 ≠ Config.unloadedByte

/-- `run_state` (10_state.md R29). -/
inductive RunState where
  /-- constructed, not yet running; the host may load memory and registers -/
  | idle
  /-- the step repeats -/
  | running
  /-- word 0x0000 was dispatched; terminal -/
  | halted
  /-- a fault was raised; terminal -/
  | faulted
  deriving DecidableEq, Repr

/-- `fault.kind` (60_exceptions.md R150). -/
inductive FaultKind where
  /-- no fault: the reset value -/
  | noFault
  /-- CALL dispatched with sp = 16 (R151) -/
  | stackOverflow
  /-- RETURN dispatched with sp = 0 (R152) -/
  | stackUnderflow
  /-- the fetched word matches no row of the opcode table (R153) -/
  | unimplementedInstruction
  /-- a step begins with pc > 4094 (R154) -/
  | fetchRange
  deriving DecidableEq, Repr

/-- The fault record (10_state.md R30, 60_exceptions.md R156). -/
structure FaultRecord where
  kind : FaultKind
  word : Word
  fetchPc : Word
  deriving DecidableEq, Repr

/-- The fault record at reset, and until a fault is raised (10_state.md R33). -/
def FaultRecord.clear : FaultRecord := { kind := .noFault, word := 0x0000, fetchPc := 0x0000 }

/-- The whole machine state (10_state.md R20). -/
structure State where
  /-- V[0] to V[15]; V[15] is the carry flag (R21, R22) -/
  regs : Vector Byte 16
  /-- the address of the next instruction to fetch; inside a step, after the advance, fetch_pc + 2 (R23) -/
  pc : Word
  /-- the call stack (R26) -/
  stack : Vector Word 16
  /-- the number of live stack entries and the index of the next free one (R27) -/
  sp : StackPtr
  /-- the 4096-byte memory (20_memory.md R40) -/
  mem : Memory
  /-- R29 -/
  runState : RunState
  /-- valid only while `runState` is `faulted` (R30) -/
  fault : FaultRecord
  /-- the instruction word latch, transient inside a step (R31) -/
  ir : Word
  /-- the value pc held when the current instruction's fetch began, transient inside a step (00_scope.md R8) -/
  fetchPc : Word
  deriving DecidableEq, Repr

/-- Why a step stops without a next state. The four faults of 60_exceptions.md are NOT here: the spec describes what
raising one does (R155), so it is a next state. These are the states in which the spec gives no step at all. -/
inductive Fault where
  /-- raised by `step` in IDLE: "No step exists in IDLE, HALTED or FAULTED" (40_step_cycle.md R87). Safe: the machine has
  no step there either. -/
  | noStepInIdle
  /-- raised by `step` in HALTED, which is terminal (40_step_cycle.md R87, 41_system.md R100). Safe. -/
  | noStepInHalted
  /-- raised by `step` in FAULTED, which is terminal (40_step_cycle.md R87, 60_exceptions.md R159). Safe. -/
  | noStepInFaulted
  /-- raised by CALL and RETURN where sp is 17 to 31, values no run reaches (10_state.md R27, R28; log entry 6). Safe. -/
  | stackPointerUnreachable
  deriving DecidableEq, Repr

/-- Why something has no meaning in this model. -/
inductive Refusal where
  /-- raised by an arm of `exec` for an instruction with no meaning yet: none is left. Safe. -/
  | notModelled (mnemonic : String)
  /-- raised by the host layer for any operation but Construct, and for a step, before the first Construct
  (10_state.md R34, 70_reset_and_hazards.md R181; log entry 10). Safe. -/
  | notConstructed
  /-- raised by the host layer for WriteMem and WriteReg outside IDLE: "The model gives the host no such move"
  (70_reset_and_hazards.md R186; log entry 9). Unsafe where a real host writes during a run (93_implementation_defined.md U6). -/
  | hostWriteOutsideIdle
  /-- raised by the host layer for ReadReg in RUNNING where the embedding exposes no debug hook (60_exceptions.md R167;
  log entry 9). Safe. -/
  | probeNotExposed
  deriving DecidableEq, Repr

/-- The state right after Construct with an image that loads nothing (10_state.md R33, 70_reset_and_hazards.md R180).
The entry offset is open in the spec (log entry 1); so are the two latches' values (log entry 3). -/
def State.reset : State where
  regs := Vector.replicate 16 0x00
  pc := Config.resetEntryOffset
  stack := Vector.replicate 16 0x0000
  sp := 0
  mem := []
  runState := .idle
  fault := FaultRecord.clear
  ir := 0x0000
  fetchPc := 0x0000

end Sys2Proof.Machine
end

