-- ==== Sys2Proof/Machine/Ops.lean ====
section
/-! DEFINITION. The named operations over memory, registers, the call stack and the control state; fetch and advance;
raising a fault as ONE operation (60_exceptions.md R155). There is no return from a fault to model (R159). -/

namespace Sys2Proof.Machine

/-! ## Memory -/

/-- The byte at an address: 0x00 where none is listed (20_memory.md R40, 10_state.md R33). -/
def Memory.read : Memory → Nat → Byte
  | [], _ => Config.unloadedByte
  | c :: m, a => if c.1 = a then c.2 else Memory.read m a

/-- Write one byte, keeping the canonical form: 0x00 removes the entry. -/
def Memory.write : Memory → Nat → Byte → Memory
  | [], a, v => if v = Config.unloadedByte then [] else [(a, v)]
  | c :: m, a, v =>
    if a < c.1 then (if v = Config.unloadedByte then c :: m else (a, v) :: c :: m)
    else if a = c.1 then (if v = Config.unloadedByte then m else (a, v) :: m)
    else c :: Memory.write m a v

/-- `mem[a]` (00_scope.md R8). Reading has no side effect (20_memory.md R47). -/
def readMem (a : Addr) (s : State) : Byte := s.mem.read a.toNat

/-- `mem[a] <- b`: a host operation only, no instruction uses it (20_memory.md R46). -/
def writeMem (a : Addr) (b : Byte) (s : State) : State := { s with mem := s.mem.write a.toNat b }

/-- The 2-byte read MemRead(a, 2), big-endian, without alignment (00_scope.md R8; 20_memory.md R42, R44). The caller has
checked that `a + 1` is an address. -/
def readWord (a : Addr) (s : State) : Word := wordOfBytes (readMem a s) (readMem (a + 1) s)

/-- Store a word big-endian at `a` and `a + 1`: how the host places program words (70_reset_and_hazards.md R188). -/
def placeWord (a : Addr) (w : Word) (s : State) : State :=
  writeMem (a + 1) (lowByte w) (writeMem a (highByte w) s)

/-! ## General registers -/

/-- `V[r]` (10_state.md R21). No register is hardwired. -/
def readReg (r : RegIdx) (s : State) : Byte := s.regs[r.toNat]'(r.isLt)

/-- `V[r] <- v` (10_state.md R21). -/
def writeReg (r : RegIdx) (v : Byte) (s : State) : State := { s with regs := s.regs.set r.toNat v r.isLt }

/-! ## Control state -/

/-- `pc <- t` (10_state.md R23). -/
def setPc (t : Word) (s : State) : State := { s with pc := t }

/-- `sp <- v` (10_state.md R27). -/
def setSp (v : StackPtr) (s : State) : State := { s with sp := v }

/-- `run_state <- r` (10_state.md R29). -/
def setRunState (r : RunState) (s : State) : State := { s with runState := r }

/-- Write the fault record (10_state.md R30). -/
def setFault (f : FaultRecord) (s : State) : State := { s with fault := f }

/-- Load the two latches of the fetch (10_state.md R31, 40_step_cycle.md R81). -/
def setLatches (w f : Word) (s : State) : State := { s with ir := w, fetchPc := f }

/-! ## The call stack -/

/-- The stack entry a value of the stack pointer indexes: 0 to 15 (10_state.md R26; 16 is never an index, R27). -/
def stackSlot (p : StackPtr) : Option (Fin 16) :=
  if h : p.toNat < 16 then some ⟨p.toNat, h⟩ else none

/-- `stack[i]` (10_state.md R26). -/
def readStack (i : Fin 16) (s : State) : Word := s.stack[i.val]

/-- `stack[i] <- v` (10_state.md R26). -/
def writeStack (i : Fin 16) (v : Word) (s : State) : State := { s with stack := s.stack.set i.val v }

/-! ## Fetch and advance -/

/-- The range check: a fetch is legal only with pc in [0, 4094] (20_memory.md R45, 40_step_cycle.md R81). -/
def fetchable (s : State) : Bool := decide (s.pc ≤ Config.pcMax)

/-- The memory address of a fetchable pc: its low 12 bits (70_reset_and_hazards.md R194: `mem_addr` is pc[11:0]). -/
def fetchAddr (s : State) : Addr := s.pc.setWidth 12

/-- The word at pc: `(mem[pc] << 8) | mem[pc+1]` (40_step_cycle.md R81). -/
def fetchWord (s : State) : Word := readWord (fetchAddr s) s

/-- Fetch: latch the word and the address it came from; nothing else changes (40_step_cycle.md R80 part 2, R81). -/
def fetch (s : State) : State := setLatches (fetchWord s) s.pc s

/-- Advance: pc + 2, for every fetched word, before the handler runs (40_step_cycle.md R82). -/
def advance (s : State) : State := setPc (s.pc + Config.instrBytes) s

/-! ## Ends of a step -/

/-- Raising a fault, for every kind: the record and FAULTED, nothing else (60_exceptions.md R155, 00_scope.md R8). -/
def raise (k : FaultKind) (word fpc : Word) (s : State) : State :=
  setRunState .faulted (setFault { kind := k, word := word, fetchPc := fpc } s)

/-- A fault raised at dispatch records the latched word and the address of its fetch (60_exceptions.md R150, R153). -/
def raiseAtDispatch (k : FaultKind) (s : State) : State := raise k s.ir s.fetchPc s

/-- `halt` (00_scope.md R8, 41_system.md R100). -/
def haltRun (s : State) : State := setRunState .halted s

end Sys2Proof.Machine
end

