-- ==== Sys2Proof/Machine/Flags.lean ====
section
/-! DEFINITION. The one arithmetic operation, unsigned 8-bit addition, and the one flag, the carry that ADD-REG writes
into V[15] (45_alu_register.md R135, R136; 10_state.md R22). The sum is computed exactly, then narrowed. -/

namespace Sys2Proof.Machine

/-- The exact unsigned sum, 0 to 510 (45_alu_register.md R134). -/
def exactSum (a b : Byte) : Nat := a.toNat + b.toNat

/-- The sum modulo 256 (44_immediate.md R126, 45_alu_register.md R134). -/
def wrapSum (a b : Byte) : Byte := BitVec.ofNat 8 (exactSum a b)

/-- The carry flag's value: 0x01 if the sum exceeds 255, else 0x00 (45_alu_register.md R134). -/
def carryOf (a b : Byte) : Byte := if exactSum a b > 255 then 0x01 else 0x00

/-- Write the flag register (10_state.md R22). -/
def writeFlag (v : Byte) (s : State) : State := writeReg Config.flagReg v s

end Sys2Proof.Machine
end

