-- ==== Sys2Proof/Machine/Operands.lean ====
section
/-! DEFINITION. The operand forms: a register, an 8-bit immediate, a 12-bit address (30_encoding.md R61, R63). There is
no memory operand, hence no addressing mode (20_memory.md R41). -/

namespace Sys2Proof.Machine

/-- A register operand: the old value of `V[r]`, read before anything is written (00_scope.md R9, 45_alu_register.md R138). -/
def regOperand (r : RegIdx) (s : State) : Byte := readReg r s

/-- An immediate operand, used as it stands: neither scaled nor extended (30_encoding.md R63). -/
def immOperand (kk : Byte) : Byte := kk

/-- An address operand as a value of pc: zero-extended, not scaled, not relative (30_encoding.md R63). -/
def addrOperand (addr : Addr) : Word := addr.setWidth 16

end Sys2Proof.Machine
end

