-- ==== Sys2Proof/Machine/AluRegister.lean ====
section
/-! DEFINITION. The register-register instructions: LOAD-REG, OR, AND, XOR, ADD-REG (45_alu_register.md). Both sources
are read from the state before any write (R138). -/

namespace Sys2Proof.Machine

/-- LOAD-REG: `V[x] <- V[y]` (45_alu_register.md R130). -/
def execLoadReg (x y : RegIdx) (s : State) : Host.Outcome State Fault Refusal :=
  .next (writeReg x (regOperand y s) s)

/-- OR: `V[x] <- V[x] | V[y]`, no flag (45_alu_register.md R131). -/
def execOrReg (x y : RegIdx) (s : State) : Host.Outcome State Fault Refusal :=
  .next (writeReg x (regOperand x s ||| regOperand y s) s)

/-- AND: `V[x] <- V[x] & V[y]`, no flag (45_alu_register.md R132). -/
def execAndReg (x y : RegIdx) (s : State) : Host.Outcome State Fault Refusal :=
  .next (writeReg x (regOperand x s &&& regOperand y s) s)

/-- XOR: `V[x] <- V[x] ^ V[y]`, no flag (45_alu_register.md R133). -/
def execXorReg (x y : RegIdx) (s : State) : Host.Outcome State Fault Refusal :=
  .next (writeReg x (regOperand x s ^^^ regOperand y s) s)

/-- ADD-REG: the sum to `V[x]`, then the carry to V[15]; the later write wins when x = 15 (45_alu_register.md R134). -/
def execAddReg (x y : RegIdx) (s : State) : Host.Outcome State Fault Refusal :=
  .next (writeFlag (carryOf (regOperand x s) (regOperand y s))
    (writeReg x (wrapSum (regOperand x s) (regOperand y s)) s))

end Sys2Proof.Machine
end

