-- ==== Sys2Proof/Machine/ControlTransfer.lean ====
section
/-! DEFINITION. Control transfer: RETURN, JUMP, CALL (42_control_transfer.md). -/

namespace Sys2Proof.Machine

/-- RETURN: StackUnderflowFault when sp = 0; else sp goes down by 1 and pc takes the entry that was on top, which keeps
its value (42_control_transfer.md R105, 10_state.md R26). -/
def execRet (s : State) : Host.Outcome State Fault Refusal :=
  if s.sp = 0 then .next (raiseAtDispatch .stackUnderflow s)
  else
    match stackSlot (s.sp - 1) with
    | some i => .next (setPc (readStack i s) (setSp (s.sp - 1) s))
    | none => .fault .stackPointerUnreachable

/-- JUMP: pc takes the address (42_control_transfer.md R106). -/
def execJump (addr : Addr) (s : State) : Host.Outcome State Fault Refusal := .next (setPc (addrOperand addr) s)

/-- CALL: StackOverflowFault when sp = 16; else the advanced pc is pushed, sp goes up by 1 and pc takes the address
(42_control_transfer.md R107). -/
def execCall (addr : Addr) (s : State) : Host.Outcome State Fault Refusal :=
  if s.sp = Config.stackFull then .next (raiseAtDispatch .stackOverflow s)
  else
    match stackSlot s.sp with
    | some i => .next (setPc (addrOperand addr) (setSp (s.sp + 1) (writeStack i s.pc s)))
    | none => .fault .stackPointerUnreachable

end Sys2Proof.Machine
end

