-- ==== Sys2Proof/Machine/Immediate.lean ====
section
/-! DEFINITION. The register-immediate instructions: LOAD-IMM, ADD-IMM (44_immediate.md). -/

namespace Sys2Proof.Machine

/-- LOAD-IMM: `V[x] <- kk` (44_immediate.md R125). -/
def execLoadImm (x : RegIdx) (kk : Byte) (s : State) : Host.Outcome State Fault Refusal :=
  .next (writeReg x (immOperand kk) s)

/-- ADD-IMM: `V[x] <- (V[x] + kk) mod 256`; the carry is discarded (44_immediate.md R126). -/
def execAddImm (x : RegIdx) (kk : Byte) (s : State) : Host.Outcome State Fault Refusal :=
  .next (writeReg x (wrapSum (regOperand x s) (immOperand kk)) s)

end Sys2Proof.Machine
end

