-- ==== Sys2Proof/Machine/Skip.lean ====
section
/-! DEFINITION. The conditional skips: SKIP-EQ-IMM, SKIP-NEQ-IMM, SKIP-EQ-REG (43_skip.md). -/

namespace Sys2Proof.Machine

/-- "an extra 2" when the condition holds (43_skip.md): the skipped bytes are not fetched, decoded or checked. -/
def skipIf (c : Bool) (s : State) : State := if c then setPc (s.pc + Config.instrBytes) s else s

/-- SKIP-EQ-IMM (43_skip.md R115). -/
def execSkipEqImm (x : RegIdx) (kk : Byte) (s : State) : Host.Outcome State Fault Refusal :=
  .next (skipIf (regOperand x s == immOperand kk) s)

/-- SKIP-NEQ-IMM (43_skip.md R116). -/
def execSkipNeqImm (x : RegIdx) (kk : Byte) (s : State) : Host.Outcome State Fault Refusal :=
  .next (skipIf (regOperand x s != immOperand kk) s)

/-- SKIP-EQ-REG (43_skip.md R117). -/
def execSkipEqReg (x y : RegIdx) (s : State) : Host.Outcome State Fault Refusal :=
  .next (skipIf (regOperand x s == regOperand y s) s)

end Sys2Proof.Machine
end

