-- ==== Sys2Proof/Machine/System.lean ====
section
/-! DEFINITION. The system instructions: HALT, CLEAR (41_system.md). -/

namespace Sys2Proof.Machine

/-- HALT: `run_state <- HALTED`; pc keeps the advanced value (41_system.md R100). -/
def execHalt (s : State) : Host.Outcome State Fault Refusal := .next (haltRun s)

/-- CLEAR: nothing; "must be accepted without fault" (41_system.md R101). -/
def execClear (s : State) : Host.Outcome State Fault Refusal := .next s

end Sys2Proof.Machine
end

