-- ==== Sys2Proof/Machine/Cycle.lean ====
section
/-! DEFINITION. One step in RUNNING: range check, fetch, advance, decode, dispatch (40_step_cycle.md R80). -/

namespace Sys2Proof.Machine

/-- The state the handler starts from: fetched, then advanced (40_step_cycle.md R80 parts 2 and 3). -/
def fetchAndAdvance (s : State) : State := advance (fetch s)

/-- Decode and dispatch: the handler of the latched word, or UnimplementedInstructionFault (40_step_cycle.md R80 parts 4
and 5, R84; 60_exceptions.md R153). -/
def dispatch (s : State) : Host.Outcome State Fault Refusal :=
  match decode (wordBytes s.ir) with
  | .ok (i, _) => exec i s
  | .error _ => .next (raiseAtDispatch .unimplementedInstruction s)

/-- The whole step of RUNNING. Outside the legal range pc is not advanced and no memory is read (40_step_cycle.md R80, R81;
60_exceptions.md R154). -/
def stepRunning (s : State) : Host.Outcome State Fault Refusal :=
  if fetchable s then dispatch (fetchAndAdvance s) else .next (raise .fetchRange 0x0000 s.pc s)

/-- Place an instruction word where the next step fetches it (the host's load and Run, 70_reset_and_hazards.md R183, R184;
log entry 4): at pc, or at address 0 where no fetch at pc is legal; and RUNNING, since only then a step exists. -/
def placeAndRun (w : Word) (s : State) : State :=
  let t := if fetchable s then s else setPc 0x0000 s
  setRunState .running (placeWord (fetchAddr t) w t)

end Sys2Proof.Machine
end

