-- ==== Sys2Proof/Machine/Step.lean ====
section
/-! DEFINITION. The step function (40_step_cycle.md R80, R87), and the placing of an instruction for it. -/

namespace Sys2Proof.Machine

/-- One step. It is defined only in RUNNING; in the other run states "No step exists" (40_step_cycle.md R80, R87; log
entry 5). -/
def step (s : State) : Host.Outcome State Fault Refusal :=
  match s.runState with
  | .idle => .fault .noStepInIdle
  | .running => stepRunning s
  | .halted => .fault .noStepInHalted
  | .faulted => .fault .noStepInFaulted

/-- `s` with the instruction word `w` (numbered as the opcode table numbers it; the bits above `nbits` are 0) where the
next step fetches it (log entry 4). -/
def State.withFetchWord (s : State) (nbits w : Nat) : State :=
  placeAndRun (BitVec.ofNat 16 (w % 2 ^ nbits)) s

end Sys2Proof.Machine
end

