-- ==== Sys2Proof/Machine/Signals.lean ====
section
/-! DEFINITION. The codes of run_state and of the fault kinds (10_state.md R29, 60_exceptions.md R150), and the output
signals of the informative list (70_reset_and_hazards.md R194) as a view of the state. Nothing else uses them. -/

namespace Sys2Proof.Machine

/-- The 2-bit codes of run_state (10_state.md R29). -/
def RunState.code : RunState → BitVec 2
  | .idle => 0
  | .running => 1
  | .halted => 2
  | .faulted => 3

/-- The 3-bit codes of the fault kinds (60_exceptions.md R150). -/
def FaultKind.code : FaultKind → BitVec 3
  | .noFault => 0
  | .stackOverflow => 1
  | .stackUnderflow => 2
  | .unimplementedInstruction => 3
  | .fetchRange => 4

/-- The output signals (70_reset_and_hazards.md R194). `memAddr` is the two fetch addresses, in order; not driven where
pc > 4094. -/
structure OutputPins where
  memAddr : Option (Addr × Addr)
  probeData : Byte
  runState : BitVec 2
  faultKind : BitVec 3
  faultWord : Word
  faultPc : Word
  deriving DecidableEq, Repr

/-- The output signals of a state, with `probe_index` set to `probeIndex` (70_reset_and_hazards.md R194). -/
def outputPins (probeIndex : RegIdx) (s : State) : OutputPins where
  memAddr := if fetchable s then some (fetchAddr s, fetchAddr s + 1) else none
  probeData := readReg probeIndex s
  runState := s.runState.code
  faultKind := s.fault.kind.code
  faultWord := s.fault.word
  faultPc := s.fault.fetchPc

end Sys2Proof.Machine
end

