-- ==== Sys2Proof/Machine/HostOps.lean ====
section
/-! DEFINITION. The host's operations, the block's only external boundary (70_reset_and_hazards.md R180 to R187), and the
run loop (40_step_cycle.md R88). The block before its first Construct is `none` (10_state.md R34; log entry 10). -/

namespace Sys2Proof.Machine

/-- The memory of a host's image, given as the bytes the host fills, in order; every other byte is 0x00
(00_scope.md R5, 10_state.md R33; log entry 2). -/
def imageMemory (image : List (Addr × Byte)) : Memory :=
  image.foldl (fun m c => Memory.write m c.1.toNat c.2) []

/-- Construct(MEM_IMAGE, ENTRY_OFFSET): the reset with parameters; the offset is not validated (70_reset_and_hazards.md R180). -/
def construct (image : List (Addr × Byte)) (entryOffset : Word) : State :=
  { State.reset with mem := imageMemory image, pc := entryOffset }

/-- The host's operations (70_reset_and_hazards.md R182). -/
inductive HostOp where
  | construct (image : List (Addr × Byte)) (entryOffset : Word)
  | writeMem (a : Addr) (b : Byte)
  | writeReg (i : RegIdx) (b : Byte)
  | run
  | readReg (i : RegIdx)
  | readStatus
  deriving DecidableEq, Repr

/-- What an operation returns to the host (70_reset_and_hazards.md R182). -/
inductive HostReply where
  /-- nothing is returned -/
  | done
  /-- ReadReg: V[i] -/
  | reg (v : Byte)
  /-- ReadStatus: run_state and the fault record -/
  | status (r : RunState) (f : FaultRecord)
  deriving DecidableEq, Repr

/-- WriteMem and WriteReg are moves of the host in IDLE only (70_reset_and_hazards.md R183, R186). -/
def inIdle (s t : State) : Host.Outcome (State × HostReply) Fault Refusal :=
  if s.runState = .idle then .next (t, .done) else .refused .hostWriteOutsideIdle

/-- Run: IDLE becomes RUNNING; in any other state it is ignored (70_reset_and_hazards.md R184, R187). -/
def startRun (s : State) : State := if s.runState = .idle then setRunState .running s else s

/-- ReadReg: a pure read; in RUNNING only where the embedding exposes the debug hook (70_reset_and_hazards.md R185,
60_exceptions.md R167). -/
def probeReg (i : RegIdx) (s : State) : Host.Outcome (State × HostReply) Fault Refusal :=
  if s.runState = .running ∧ Config.debugHook = false then .refused .probeNotExposed
  else .next (s, .reg (readReg i s))

/-- One host operation on a constructed block, at an instruction boundary (70_reset_and_hazards.md R182). -/
def hostOp (op : HostOp) (s : State) : Host.Outcome (State × HostReply) Fault Refusal :=
  match op with
  | .construct image entryOffset => .next (construct image entryOffset, .done)
  | .writeMem a b => inIdle s (writeMem a b s)
  | .writeReg i b => inIdle s (writeReg i b s)
  | .run => .next (startRun s, .done)
  | .readReg i => probeReg i s
  | .readStatus => .next (s, .status s.runState s.fault)

/-- One host operation on the block, which may not have been constructed yet: then only Construct has a meaning
(70_reset_and_hazards.md R181). -/
def blockOp (op : HostOp) : Option State → Host.Outcome (State × HostReply) Fault Refusal
  | some s => hostOp op s
  | none =>
    match op with
    | .construct image entryOffset => .next (construct image entryOffset, .done)
    | _ => .refused .notConstructed

/-- One step of the block, which may not have been constructed yet (70_reset_and_hazards.md R181). -/
def blockStep : Option State → Host.Outcome State Fault Refusal
  | some s => step s
  | none => .refused .notConstructed

/-- The run loop: steps are taken while run_state = RUNNING (40_step_cycle.md R88). `fuel` bounds only this executor: the
machine has no bound of its own (R89). -/
def runLoop : Nat → State → Host.Outcome State Fault Refusal
  | 0, s => .next s
  | fuel + 1, s =>
    if s.runState = .running then
      match step s with
      | .next t => runLoop fuel t
      | .fault r => .fault r
      | .refused r => .refused r
    else .next s

end Sys2Proof.Machine
end

