-- ==== Sys2Proof/Safety.lean ====
section
/-! DEFINITION. The terms statements are made in: what an observer of the machine may rely on (live stack entries, not
dead ones: 93_implementation_defined.md U3), what an instruction leaves unchanged, when a run has ended, and the
invariant of the machine. -/

namespace Sys2Proof.Machine

/-- The live stack entries `stack[0]` to `stack[sp-1]`, oldest first (10_state.md R27). The entries at and above sp may not
be read by a claim (93_implementation_defined.md U3), so no statement speaks of them. -/
def State.liveStack (s : State) : List Word := s.stack.toList.take s.sp.toNat

/-- Every memory byte reads the same. -/
def SameMemory (s t : State) : Prop := ∀ a : Addr, readMem a t = readMem a s

/-- Every general register but those in `dests` reads the same. -/
def SameRegsExcept (dests : List RegIdx) (s t : State) : Prop := ∀ r : RegIdx, r ∉ dests → readReg r t = readReg r s

/-- Everything is the same but, possibly, general registers and pc: the call stack and sp, memory, run_state, the fault
record and the fetch latches. -/
structure SameSystem (s t : State) : Prop where
  memory : SameMemory s t
  stackPointer : t.sp = s.sp
  liveStack : t.liveStack = s.liveStack
  runState : t.runState = s.runState
  fault : t.fault = s.fault
  ir : t.ir = s.ir
  fetchPc : t.fetchPc = s.fetchPc

/-- Raising the fault `k` with the payload `word`, `fpc` is all that leads from `s` to `t` (60_exceptions.md R155). -/
structure RaisedFrom (k : FaultKind) (word fpc : Word) (s t : State) : Prop where
  runState : t.runState = .faulted
  fault : t.fault = { kind := k, word := word, fetchPc := fpc }
  registers : SameRegsExcept [] s t
  pc : t.pc = s.pc
  memory : SameMemory s t
  stackPointer : t.sp = s.sp
  liveStack : t.liveStack = s.liveStack

/-- A run has ended (70_reset_and_hazards.md R189). -/
abbrev RunEnded (s : State) : Prop := s.runState = .halted ∨ s.runState = .faulted

/-- `0 ≤ sp ≤ 16` (10_state.md R28). -/
abbrev SpInRange (s : State) : Prop := s.sp.toNat ≤ 16

/-- A live stack entry is a pushed pc, `fetch_pc + 2` of a legal fetch: 2 to 4096 (10_state.md R25,
42_control_transfer.md R105). -/
abbrev StackHoldsReturnAddresses (s : State) : Prop := ∀ v ∈ s.liveStack, 2 ≤ v.toNat ∧ v.toNat ≤ 4096

/-- The fault record is clear until FAULTED, and names a kind in FAULTED (10_state.md R30, 60_exceptions.md R156). -/
abbrev FaultRecordValid (s : State) : Prop :=
  (s.runState ≠ .faulted → s.fault = FaultRecord.clear) ∧ (s.runState = .faulted → s.fault.kind ≠ .noFault)

/-- The invariant of the machine. -/
structure Inv (s : State) : Prop where
  memory : s.mem.wf
  stackPointer : SpInRange s
  returnAddresses : StackHoldsReturnAddresses s
  faultRecord : FaultRecordValid s

/-- Two states that no program and no host can tell apart at an instruction boundary: they agree on everything but dead
stack entries and the two fetch latches (10_state.md R26, R31; 92_eei_decisions.md D4). -/
structure Indistinguishable (s t : State) : Prop where
  registers : t.regs = s.regs
  pc : t.pc = s.pc
  stackPointer : t.sp = s.sp
  liveStack : t.liveStack = s.liveStack
  memory : t.mem = s.mem
  runState : t.runState = s.runState
  fault : t.fault = s.fault

/-- The fetch of this state is legal and gives the word `w` (40_step_cycle.md R81): `(mem[pc] << 8) | mem[pc+1]`. -/
structure Fetches (w : Word) (s : State) : Prop where
  running : s.runState = .running
  inRange : s.pc.toNat ≤ 4094
  word : (readMem (BitVec.ofNat 12 s.pc.toNat) s).setWidth 16 <<< 8 |||
    (readMem (BitVec.ofNat 12 (s.pc.toNat + 1)) s).setWidth 16 = w

/-- The operands of `i` are the fields of `w` that its format uses, by arithmetic on the word (30_encoding.md R61, R62:
`x` = bits 11-8, `y` = bits 7-4, `kk` = bits 7-0, `addr` = bits 11-0). -/
def OperandsAreFieldsOf (w : Word) : Instr → Prop
  | .halt => True
  | .clear => True
  | .ret => True
  | .jump a => a.toNat = w.toNat % 4096
  | .call a => a.toNat = w.toNat % 4096
  | .skipEqImm x kk => x.toNat = w.toNat / 256 % 16 ∧ kk.toNat = w.toNat % 256
  | .skipNeqImm x kk => x.toNat = w.toNat / 256 % 16 ∧ kk.toNat = w.toNat % 256
  | .skipEqReg x y => x.toNat = w.toNat / 256 % 16 ∧ y.toNat = w.toNat / 16 % 16
  | .loadImm x kk => x.toNat = w.toNat / 256 % 16 ∧ kk.toNat = w.toNat % 256
  | .addImm x kk => x.toNat = w.toNat / 256 % 16 ∧ kk.toNat = w.toNat % 256
  | .loadReg x y => x.toNat = w.toNat / 256 % 16 ∧ y.toNat = w.toNat / 16 % 16
  | .orReg x y => x.toNat = w.toNat / 256 % 16 ∧ y.toNat = w.toNat / 16 % 16
  | .andReg x y => x.toNat = w.toNat / 256 % 16 ∧ y.toNat = w.toNat / 16 % 16
  | .xorReg x y => x.toNat = w.toNat / 256 % 16 ∧ y.toNat = w.toNat / 16 % 16
  | .addReg x y => x.toNat = w.toNat / 256 % 16 ∧ y.toNat = w.toNat / 16 % 16

/-- The register an instruction names as its destination (10_state.md R21). -/
def destination : Instr → Option RegIdx
  | .halt => none
  | .clear => none
  | .ret => none
  | .jump _ => none
  | .call _ => none
  | .skipEqImm _ _ => none
  | .skipNeqImm _ _ => none
  | .skipEqReg _ _ => none
  | .loadImm x _ => some x
  | .addImm x _ => some x
  | .loadReg x _ => some x
  | .orReg x _ => some x
  | .andReg x _ => some x
  | .xorReg x _ => some x
  | .addReg x _ => some x

/-- How an instruction fetched in `s` leaves pc in `t` (10_state.md R24), with `f` the pc of `s`. -/
def PcAfter (s t : State) : Instr → Prop
  | .halt => t.pc = s.pc + 2
  | .clear => t.pc = s.pc + 2
  | .ret => if s.sp = 0 then t.pc = s.pc + 2 else s.liveStack.getLast? = some t.pc
  | .jump a => t.pc.toNat = a.toNat
  | .call a => if s.sp = 16 then t.pc = s.pc + 2 else t.pc.toNat = a.toNat
  | .skipEqImm x kk => t.pc = if readReg x s = kk then s.pc + 4 else s.pc + 2
  | .skipNeqImm x kk => t.pc = if readReg x s = kk then s.pc + 2 else s.pc + 4
  | .skipEqReg x y => t.pc = if readReg x s = readReg y s then s.pc + 4 else s.pc + 2
  | .loadImm _ _ => t.pc = s.pc + 2
  | .addImm _ _ => t.pc = s.pc + 2
  | .loadReg _ _ => t.pc = s.pc + 2
  | .orReg _ _ => t.pc = s.pc + 2
  | .andReg _ _ => t.pc = s.pc + 2
  | .xorReg _ _ => t.pc = s.pc + 2
  | .addReg _ _ => t.pc = s.pc + 2

/-- The handlers of a list of instructions, one after the other, stopping where one stops. -/
def execAll : List Instr → State → Host.Outcome State Fault Refusal
  | [], s => .next s
  | i :: rest, s =>
    match exec i s with
    | .next t => execAll rest t
    | .fault r => .fault r
    | .refused r => .refused r

end Sys2Proof.Machine
end

