-- ==== Sys2Proof/Certificates/Slice0/Obligations.lean ====
section
/-! DEFINITION. The statements for the provers. Each docstring names the rule of spec/ it formalises. In a statement about
`exec`, `s` is the state the handler starts from: pc already holds fetch_pc + 2 and the latches hold the word and its
address (40_step_cycle.md R82); that a step runs the handler from exactly that state is `StepRunsDecodedInstruction`.
Statements about a run speak of live stack entries only (93_implementation_defined.md U3); `ConstructSetsEveryElement` gives
all 16 right after Construct. -/

open Sys2Proof Sys2Proof.Machine

/-! ## Encoding -/

/-- Decoding the bytes of an encoded instruction gives it back, with every operand at every value, and leaves the bytes
after it (30_encoding.md sections 1 to 3). -/
def Obligations.DecodeInvertsEncode : Prop :=
  ∀ (i : Instr) (rest : List Byte), decode (wordBytes (encode i) ++ rest) = .ok (i, rest)

/-- No bit of a legal word is ignored: the word is the encoding of what it decodes to (30_encoding.md R67). -/
def Obligations.EncodeInvertsDecode : Prop :=
  ∀ (w : Word) (i : Instr), decodeWord w = .ok i → encode i = w

/-- 30_encoding.md R66: a word decodes to the instruction of a row exactly when `(w & mask) == match` for that row, with
the fields of the word as operands; and a word that no row matches decodes to none. -/
def Obligations.DecoderFollowsOpcodeTable : Prop :=
  (∀ r ∈ opcodeTable, ∀ w : Word, w &&& r.mask = r.pattern ↔
      ∃ i, decodeWord w = .ok i ∧ i.mnemonic = r.mnemonic) ∧
  (∀ (w : Word) (i : Instr), decodeWord w = .ok i → OperandsAreFieldsOf w i) ∧
  (∀ w : Word, (∀ r ∈ opcodeTable, w &&& r.mask ≠ r.pattern) → ∃ e, decodeWord w = .error e)

/-- The fifteen patterns are pairwise disjoint: no word matches two of them (30_encoding.md R65). -/
def Obligations.OpcodePatternsAreDisjoint : Prop :=
  opcodeTable.length = 15 ∧
  ∀ r ∈ opcodeTable, ∀ q ∈ opcodeTable, ∀ w : Word, w &&& r.mask = r.pattern → w &&& q.mask = q.pattern → r = q

/-- The words that decode to nothing are exactly the four ranges of 30_encoding.md R68. The range `0x5xyN` rests on the
spec's own decision D9 (92_eei_decisions.md). -/
def Obligations.IllegalWordsAreTheFourRanges : Prop :=
  ∀ w : Word, (∃ e, decodeWord w = .error e) ↔
    (w.toNat < 0x1000 ∧ w ≠ 0x0000 ∧ w ≠ 0x00E0 ∧ w ≠ 0x00EE) ∨
    (w.toNat / 4096 = 5 ∧ w.toNat % 16 ≠ 0) ∨
    (w.toNat / 4096 = 8 ∧ 5 ≤ w.toNat % 16) ∨
    0x9000 ≤ w.toNat

/-- 30_encoding.md R61: the six fields are these bits, and they overlap as the rule says. -/
def Obligations.FieldsAreTheBitSlices : Prop :=
  ∀ w : Word,
    (fields w).op.toNat = w.toNat / 4096 ∧ (fields w).x.toNat = w.toNat / 256 % 16 ∧
    (fields w).y.toNat = w.toNat / 16 % 16 ∧ (fields w).n.toNat = w.toNat % 16 ∧
    (fields w).kk.toNat = w.toNat % 256 ∧ (fields w).addr.toNat = w.toNat % 4096 ∧
    (fields w).kk.toNat = (fields w).y.toNat * 16 + (fields w).n.toNat ∧
    (fields w).addr.toNat = (fields w).x.toNat * 256 + (fields w).y.toNat * 16 + (fields w).n.toNat

/-- At least one legal word of every family, that is of every value 0 to 8 of `op` (30_encoding.md R64), written out from the
spec's examples (41_system.md to 45_alu_register.md, 95_test_vectors.md), decodes to the instruction it stands for; 0x5121
decodes to nothing, by the spec's own decision D9. -/
def Obligations.WordsOfEveryFamilyDecode : Prop :=
  decodeWord 0b0000000000000000 = .ok .halt ∧ decodeWord 0b0000000011100000 = .ok .clear ∧
  decodeWord 0b0000000011101110 = .ok .ret ∧ decodeWord 0b0001001000000100 = .ok (.jump 0x204) ∧
  decodeWord 0b0010000100000000 = .ok (.call 0x100) ∧ decodeWord 0b0011000000000101 = .ok (.skipEqImm 0 5) ∧
  decodeWord 0b0100001000000001 = .ok (.skipNeqImm 2 1) ∧ decodeWord 0b0101000100100000 = .ok (.skipEqReg 1 2) ∧
  decodeWord 0b0110001100101010 = .ok (.loadImm 3 0x2A) ∧ decodeWord 0b0111000000001010 = .ok (.addImm 0 0x0A) ∧
  decodeWord 0b1000000000010100 = .ok (.addReg 0 1) ∧ decodeWord 0b0101000100100001 = .error .family5

/-! ## Reset and the host -/

/-- Construct, in every run state and before the first Construct, gives every element its reset value: registers and stack
zeroed, sp 0, pc the entry offset, the image's bytes in memory and 0x00 elsewhere, IDLE and a clear fault record
(70_reset_and_hazards.md R180, 10_state.md R33). IDLE, the clear record and the 16-bit unchecked offset are the spec's own
decisions D5, D7, D14, D19. That the image is a list of (address, byte) pairs in which the later byte of an address named
twice stands is the model's choice (log entry 2, DESIGN CHOICE). This is the one statement that reads stack entries at and
above sp: 93_implementation_defined.md U3 leaves them open only after a pop, and R33 gives all 16 right after Construct. -/
def Obligations.ConstructSetsEveryElement : Prop :=
  ∀ (image : List (Addr × Byte)) (entry : Word) (b : Option State),
    ∃ t, blockOp (.construct image entry) b = .next (t, .done) ∧
      (∀ r : RegIdx, readReg r t = 0x00) ∧ (∀ i : Fin 16, readStack i t = 0x0000) ∧ t.sp = 0 ∧ t.pc = entry ∧
      (∀ a : Addr, readMem a t = ((image.reverse.find? fun c => c.1 == a).map (·.2)).getD 0x00) ∧
      t.runState = .idle ∧ t.fault = { kind := .noFault, word := 0x0000, fetchPc := 0x0000 }

/-- The reset state and every constructed state meet the invariant. (The values of State.reset's pc and latches are the
model's choice, log entries 1 and 3; the invariant does not depend on them.) -/
def Obligations.ConstructedStatesMeetInvariant : Prop :=
  Inv State.reset ∧ ∀ (image : List (Addr × Byte)) (entry : Word), Inv (construct image entry)

/-- Every host operation that answers keeps the invariant. -/
def Obligations.HostOperationsKeepInvariant : Prop :=
  ∀ (op : HostOp) (s t : State) (r : HostReply), Inv s → hostOp op s = .next (t, r) → Inv t

/-- Loading in IDLE: WriteMem and WriteReg write the one byte and nothing else (70_reset_and_hazards.md R183; WriteReg is the
spec's own decision D10); outside IDLE they are no move of the host (R186; log entry 9). -/
def Obligations.HostLoadsOnlyInIdle : Prop :=
  ∀ (s : State), s.mem.wf →
    (s.runState = .idle →
      (∀ (a : Addr) (b : Byte), ∃ t, hostOp (.writeMem a b) s = .next (t, .done) ∧
        (∀ c : Addr, readMem c t = if c = a then b else readMem c s) ∧
        t.regs = s.regs ∧ t.pc = s.pc ∧ t.sp = s.sp ∧ t.liveStack = s.liveStack ∧ t.runState = .idle ∧ t.fault = s.fault) ∧
      (∀ (i : RegIdx) (b : Byte), ∃ t, hostOp (.writeReg i b) s = .next (t, .done) ∧
        (∀ r : RegIdx, readReg r t = if r = i then b else readReg r s) ∧
        SameMemory s t ∧ t.pc = s.pc ∧ t.sp = s.sp ∧ t.liveStack = s.liveStack ∧ t.runState = .idle ∧ t.fault = s.fault)) ∧
    (s.runState ≠ .idle →
      (∀ (a : Addr) (b : Byte), hostOp (.writeMem a b) s = .refused .hostWriteOutsideIdle) ∧
      (∀ (i : RegIdx) (b : Byte), hostOp (.writeReg i b) s = .refused .hostWriteOutsideIdle))

/-- The host changes pc, sp, the live stack and the fault record only through Construct, and run_state only through
Construct and Run from IDLE (70_reset_and_hazards.md R182; 10_state.md R29). Reads change nothing at all (R185). -/
def Obligations.HostChangesOnlyWhatItMay : Prop :=
  ∀ (op : HostOp) (s t : State) (r : HostReply), hostOp op s = .next (t, r) →
    (∀ image entry, op ≠ .construct image entry) →
    t.pc = s.pc ∧ t.sp = s.sp ∧ t.liveStack = s.liveStack ∧ t.fault = s.fault ∧
    (t.runState = s.runState ∨ (op = .run ∧ s.runState = .idle ∧ t.runState = .running)) ∧
    (op = .readStatus ∨ (∃ i, op = .readReg i) → t = s)

/-- Run starts the machine from IDLE and is ignored elsewhere (70_reset_and_hazards.md R184; R187 is the spec's own decision
D12). -/
def Obligations.RunStartsOnlyFromIdle : Prop :=
  ∀ s : State,
    (s.runState = .idle → ∃ t, hostOp .run s = .next (t, .done) ∧ t.runState = .running ∧ t.regs = s.regs ∧
      SameMemory s t ∧ t.pc = s.pc ∧ t.sp = s.sp ∧ t.liveStack = s.liveStack ∧ t.fault = s.fault) ∧
    (s.runState ≠ .idle → hostOp .run s = .next (s, .done))

/-- The probes read the current values and change nothing (70_reset_and_hazards.md R182). ReadReg answers outside RUNNING; in
RUNNING it reads the same value or is not exposed, as the embedding has it (60_exceptions.md R167; log entry 9). That
ReadStatus answers in every run state, RUNNING included, is the model's choice between R182, which says always, and R185,
which binds it to the debug hook during RUNNING (log entry 9, DEDUCED). -/
def Obligations.ProbesReadTheState : Prop :=
  ∀ s : State,
    hostOp .readStatus s = .next (s, .status s.runState s.fault) ∧
    (∀ i : RegIdx, s.runState ≠ .running → hostOp (.readReg i) s = .next (s, .reg (readReg i s))) ∧
    (∀ i : RegIdx, s.runState = .running →
      hostOp (.readReg i) s = .next (s, .reg (readReg i s)) ∨ hostOp (.readReg i) s = .refused .probeNotExposed)

/-- Before the first Construct no operation but Construct has a meaning, and no step (70_reset_and_hazards.md R181,
93_implementation_defined.md U9; log entry 10). -/
def Obligations.OnlyConstructBeforeFirstConstruct : Prop :=
  blockStep none = .refused .notConstructed ∧
  ∀ op : HostOp, (∀ image entry, op ≠ .construct image entry) → blockOp op none = .refused .notConstructed

/-! ## The step -/

/-- When the two bytes at pc decode to `i`, a step of RUNNING is `exec i` from the state with the word and its address
latched and pc moved past the instruction (40_step_cycle.md R80 to R84). -/
def Obligations.StepRunsDecodedInstruction : Prop :=
  ∀ (s : State) (i : Instr), s.runState = .running → s.pc.toNat ≤ 4094 →
    decode [readMem (BitVec.ofNat 12 s.pc.toNat) s, readMem (BitVec.ofNat 12 (s.pc.toNat + 1)) s] = .ok (i, []) →
    step s = exec i { s with
      ir := wordOfBytes (readMem (BitVec.ofNat 12 s.pc.toNat) s) (readMem (BitVec.ofNat 12 (s.pc.toNat + 1)) s),
      fetchPc := s.pc,
      pc := s.pc + 2 }

/-- 20_memory.md R42: the fetch composes the two bytes big-endian, `(mem[pc] << 8) | mem[pc+1]`, whatever the parity of pc;
mem[pc] supplies `op` and `x`, mem[pc+1] supplies `y` and `n`, equally `kk`. -/
def Obligations.FetchIsBigEndian : Prop :=
  ∀ (w : Word) (s t : State), Fetches w s → step s = .next t →
    t.ir = w ∧ t.fetchPc = s.pc ∧
    (readMem (BitVec.ofNat 12 s.pc.toNat) s).toNat = (fields t.ir).op.toNat * 16 + (fields t.ir).x.toNat ∧
    (readMem (BitVec.ofNat 12 (s.pc.toNat + 1)) s).toNat = (fields t.ir).y.toNat * 16 + (fields t.ir).n.toNat ∧
    readMem (BitVec.ofNat 12 (s.pc.toNat + 1)) s = (fields t.ir).kk

/-- How a step of each instruction leaves pc (10_state.md R24, 40_step_cycle.md R82). -/
def Obligations.PcAfterEveryInstruction : Prop :=
  ∀ (w : Word) (i : Instr) (s t : State), Fetches w s → decodeWord w = .ok i → step s = .next t → PcAfter s t i

/-- A step of RUNNING always answers a next state, and its outcome is exactly one of Continue, Halt and Fault, under the
conditions of 40_step_cycle.md R86; no step leads to IDLE. -/
def Obligations.StepOutcomeIsOneOfThree : Prop :=
  ∀ s : State, s.runState = .running → SpInRange s →
    ∃ t, step s = .next t ∧
      (t.runState = .halted ↔ Fetches 0x0000 s) ∧
      (t.runState = .faulted ↔
        4094 < s.pc.toNat ∨
        (∃ w, Fetches w s ∧ legalWord w = false) ∨
        (∃ w, Fetches w s ∧ w.toNat / 4096 = 2 ∧ s.sp = 16) ∨
        (Fetches 0x00EE s ∧ s.sp = 0)) ∧
      (t.runState = .running ↔ t.runState ≠ .halted ∧ t.runState ≠ .faulted)

/-- No step exists in IDLE, HALTED or FAULTED (40_step_cycle.md R87). HALTED and FAULTED are left by Construct only: there
every other host operation that answers changes nothing (10_state.md R29; 70_reset_and_hazards.md R182, R186, R187). The
second clause rests on the spec's own decisions D5, D11 and D12 and on log entry 9. -/
def Obligations.NoStepOutsideRunning : Prop :=
  (∀ s t : State, s.runState ≠ .running → step s ≠ .next t) ∧
  (∀ (op : HostOp) (s t : State) (r : HostReply), RunEnded s → hostOp op s = .next (t, r) →
    (∀ image entry, op ≠ .construct image entry) → t = s)

/-- Every step keeps the invariant: canonical memory, sp in 0 to 16, return addresses in the live stack, and a fault record
that is clear until FAULTED (10_state.md R25, R28, R30; 60_exceptions.md R156). -/
def Obligations.StepKeepsInvariant : Prop :=
  ∀ s t : State, Inv s → step s = .next t → Inv t

/-- `0 ≤ stack_pointer ≤ 16` at every instruction boundary (10_state.md R28): after Construct, and kept by every step and
by every host operation. -/
def Obligations.StackPointerStaysInRange : Prop :=
  (∀ image entry, (construct image entry).sp = 0) ∧
  (∀ s t : State, SpInRange s → step s = .next t → SpInRange t) ∧
  (∀ (op : HostOp) (s t : State) (r : HostReply), SpInRange s → hostOp op s = .next (t, r) → SpInRange t)

/-- pc never wraps (10_state.md R25): a step from a legal fetch address leaves pc at most 4098, and a step from any other
leaves pc as it was. -/
def Obligations.PcNeverWraps : Prop :=
  ∀ s t : State, Inv s → step s = .next t →
    (s.pc.toNat ≤ 4094 → t.pc.toNat ≤ 4098) ∧ (4094 < s.pc.toNat → t.pc = s.pc)

/-- The hardware never writes memory: no instruction, no step and no run does; the host does only by Construct and, in
IDLE, by WriteMem (20_memory.md R46). -/
def Obligations.MemoryWrittenOnlyByHost : Prop :=
  (∀ (i : Instr) (s t : State), exec i s = .next t → t.mem = s.mem) ∧
  (∀ s t : State, step s = .next t → t.mem = s.mem) ∧
  (∀ (n : Nat) (s t : State), runLoop n s = .next t → t.mem = s.mem) ∧
  (∀ (op : HostOp) (s t : State) (r : HostReply), hostOp op s = .next (t, r) → t.mem ≠ s.mem →
    (∃ image entry, op = .construct image entry) ∨ (s.runState = .idle ∧ ∃ a b, op = .writeMem a b))

/-- A step that begins with pc > 4094 raises FetchRangeFault: nothing is read, pc keeps its value, nothing else changes
(60_exceptions.md R154, 20_memory.md R45). The fault and its payload are the spec's own decisions D1 and D7. -/
def Obligations.FetchOutsideRangeRaises : Prop :=
  ∀ s : State, s.runState = .running → 4094 < s.pc.toNat →
    ∃ t, step s = .next t ∧ RaisedFrom .fetchRange 0x0000 s.pc s t

/-- 60_exceptions.md R153: a fetched word that matches no row of the opcode table raises UnimplementedInstructionFault, which
carries the word and the address it was fetched from; pc holds fetch_pc + 2; no register, stack entry or sp changes. -/
def Obligations.IllegalWordRaisesUnimplemented : Prop :=
  ∀ (w : Word) (s : State), Fetches w s → (∀ r ∈ opcodeTable, w &&& r.mask ≠ r.pattern) →
    ∃ t, step s = .next t ∧ t.runState = .faulted ∧
      t.fault = { kind := .unimplementedInstruction, word := w, fetchPc := s.pc } ∧
      t.pc = s.pc + 2 ∧ SameRegsExcept [] s t ∧ SameMemory s t ∧ t.sp = s.sp ∧ t.liveStack = s.liveStack

/-- Faults are precise (60_exceptions.md R157, R85): a step that ends FAULTED has changed nothing but the record,
run_state and, for the three dispatch faults, pc by 2; and its record is the row of 60_exceptions.md R150 for its cause.
The payloads of the kinds other than UnimplementedInstruction are the spec's own decision D7. -/
def Obligations.FaultsArePrecise : Prop :=
  ∀ s t : State, step s = .next t → t.runState = .faulted →
    SameRegsExcept [] s t ∧ SameMemory s t ∧ t.sp = s.sp ∧ t.liveStack = s.liveStack ∧
    ((4094 < s.pc.toNat ∧ t.pc = s.pc ∧ t.fault = { kind := .fetchRange, word := 0x0000, fetchPc := s.pc }) ∨
     (∃ w, Fetches w s ∧ t.pc = s.pc + 2 ∧
       ((w.toNat / 4096 = 2 ∧ s.sp = 16 ∧ t.fault = { kind := .stackOverflow, word := w, fetchPc := s.pc }) ∨
        (w = 0x00EE ∧ s.sp = 0 ∧ t.fault = { kind := .stackUnderflow, word := w, fetchPc := s.pc }) ∨
        (legalWord w = false ∧ t.fault = { kind := .unimplementedInstruction, word := w, fetchPc := s.pc }))))

/-- The fault record is written only by a step that ends FAULTED, so at most once a run, since no step follows; and it is
cleared only by Construct (60_exceptions.md R156). -/
def Obligations.FaultRecordWrittenOnce : Prop :=
  (∀ s t : State, step s = .next t → t.fault ≠ s.fault → s.runState = .running ∧ t.runState = .faulted) ∧
  (∀ s t : State, s.runState = .faulted → step s ≠ .next t) ∧
  (∀ (op : HostOp) (s t : State) (r : HostReply), hostOp op s = .next (t, r) → t.fault ≠ s.fault →
    ∃ image entry, op = .construct image entry)

/-- No program and no host can tell two states apart that differ only in dead stack entries and in the latches: a step keeps
them indistinguishable, and so does every host operation, which answers the same reply in both (10_state.md R26, R31; that
the vacated entry is kept is the spec's own decision D4). -/
def Obligations.DeadStackAndLatchesAreUnobservable : Prop :=
  (∀ s s' t : State, Indistinguishable s s' → step s = .next t → ∃ t', step s' = .next t' ∧ Indistinguishable t t') ∧
  (∀ (op : HostOp) (s s' t : State) (r : HostReply), Indistinguishable s s' → hostOp op s = .next (t, r) →
    ∃ t', hostOp op s' = .next (t', r) ∧ Indistinguishable t t')

/-- Run runs to HALT or fault (40_step_cycle.md R88). The run loop takes the machine's step while RUNNING, one step for each
unit of the executor's fuel, and answers the state itself where no fuel is left or the machine is not RUNNING. With sp in 0
to 16 it completes: the answer is RUNNING, when the fuel ended, or ended. More fuel does not change an ended answer. -/
def Obligations.RunLoopRunsToEnd : Prop :=
  (∀ s : State, runLoop 0 s = .next s) ∧
  (∀ (n : Nat) (s t : State), s.runState = .running → step s = .next t → runLoop (n + 1) s = runLoop n t) ∧
  (∀ (n : Nat) (s : State), s.runState ≠ .running → runLoop n s = .next s) ∧
  (∀ (n : Nat) (s : State), s.runState = .running → SpInRange s →
    ∃ t, runLoop n s = .next t ∧ (t.runState = .running ∨ RunEnded t)) ∧
  (∀ (n m : Nat) (s t : State), runLoop n s = .next t → RunEnded t → runLoop (n + m) s = .next t)

/-- 40_step_cycle.md R89: there is no bound on the number of steps. A JUMP to its own address stays RUNNING at that
address for any number of steps, with nothing a program or the host could observe changed. -/
def Obligations.JumpToItselfRunsForever : Prop :=
  ∀ (s : State) (a : Addr), Fetches (0x1#4 ++ a) s → s.pc.toNat = a.toNat →
    ∀ n : Nat, ∃ t, runLoop n s = .next t ∧ Indistinguishable s t

/-! ## Whole-machine rules over all instructions -/

/-- A register changes only as a destination: the one an instruction names, or V[15] for ADD-REG (10_state.md R21). -/
def Obligations.RegistersChangeOnlyAsDestinations : Prop :=
  ∀ (i : Instr) (s t : State) (r : RegIdx), exec i s = .next t → readReg r t ≠ readReg r s →
    destination i = some r ∨ (r = 0xF ∧ i.mnemonic = .ADD_REG)

/-- 10_state.md R22: the flag is V[15]. Only ADD-REG writes it as a side effect, to 0x01 if the 8-bit addition overflowed
and to 0x00 if not; any other instruction changes it only by naming it as destination; its reset value is 0x00. -/
def Obligations.FlagIsRegisterFifteen : Prop :=
  (∀ (x y : RegIdx) (s t : State), exec (.addReg x y) s = .next t →
    readReg 0xF t = if 255 < (readReg x s).toNat + (readReg y s).toNat then 0x01 else 0x00) ∧
  (∀ (i : Instr) (s t : State), exec i s = .next t → i.mnemonic ≠ .ADD_REG → destination i ≠ some 0xF →
    readReg 0xF t = readReg 0xF s) ∧
  (∀ image entry, readReg 0xF (construct image entry) = 0x00)

/-- Only CALL and RETURN change sp or the live stack, by one entry at the live end (10_state.md R26, R27). -/
def Obligations.OnlyCallAndReturnMoveTheStack : Prop :=
  ∀ (i : Instr) (s t : State), exec i s = .next t →
    (t.sp = s.sp ∧ t.liveStack = s.liveStack) ∨
    (∃ a, i = .call a ∧ t.sp.toNat = s.sp.toNat + 1 ∧ t.liveStack = s.liveStack ++ [s.pc]) ∨
    (i = .ret ∧ t.sp.toNat + 1 = s.sp.toNat ∧ s.liveStack = t.liveStack ++ [t.pc])

/-- The laws of call and return, properties P3 and P4 (42_control_transfer.md R108, part of which the spec derives from
R105 and R107; the fault payloads are left open, as 93_implementation_defined.md U11 asks). P3: a RETURN that finds a
CALL's entry on top goes to the instruction after that CALL (`s.pc`, the advanced pc of the CALL) with sp back at its
value. P4: 16 nested CALLs succeed, the 17th raises StackOverflowFault, a RETURN with sp = 0 raises StackUnderflowFault.
No other instruction touches sp or the live stack. -/
def Obligations.CallAndReturnLaws : Prop :=
  (∀ (a : Addr) (s : State) (k : Fin 16), s.sp.toNat = k.val →
    ∃ t, exec (.call a) s = .next t ∧
      ∀ u : State, u.sp.toNat = k.val + 1 → readStack k u = readStack k t →
        ∃ v, exec .ret u = .next v ∧ v.pc = s.pc ∧ v.sp = s.sp) ∧
  (∀ (addrs : List Addr) (s : State), s.sp = 0 → s.runState = .running → addrs.length ≤ 16 →
    ∃ t, execAll (addrs.map .call) s = .next t ∧ t.runState = .running ∧ t.sp.toNat = addrs.length ∧
      (addrs.length = 16 → ∀ a : Addr, ∃ u word fpc, exec (.call a) t = .next u ∧ RaisedFrom .stackOverflow word fpc t u)) ∧
  (∀ s : State, s.sp = 0 → ∃ u word fpc, exec .ret s = .next u ∧ RaisedFrom .stackUnderflow word fpc s u) ∧
  (∀ (i : Instr) (s t : State), exec i s = .next t → i.mnemonic ≠ .CALL → i.mnemonic ≠ .RETURN →
    t.sp = s.sp ∧ t.liveStack = s.liveStack)

/-- The output signals show the state (70_reset_and_hazards.md R194, informative: decision D13), with the codes 0 to 3 of
run_state (10_state.md R29, decision D5) and 0 to 4 of the fault kinds (60_exceptions.md R150, decision D6). -/
def Obligations.OutputSignalsShowTheState : Prop :=
  ∀ (i : RegIdx) (s : State),
    (outputPins i s).probeData = readReg i s ∧ (outputPins i s).faultWord = s.fault.word ∧
    (outputPins i s).faultPc = s.fault.fetchPc ∧
    ((outputPins i s).runState.toNat = 0 ↔ s.runState = .idle) ∧
    ((outputPins i s).runState.toNat = 1 ↔ s.runState = .running) ∧
    ((outputPins i s).runState.toNat = 2 ↔ s.runState = .halted) ∧
    ((outputPins i s).runState.toNat = 3 ↔ s.runState = .faulted) ∧
    ((outputPins i s).faultKind.toNat = 0 ↔ s.fault.kind = .noFault) ∧
    ((outputPins i s).faultKind.toNat = 1 ↔ s.fault.kind = .stackOverflow) ∧
    ((outputPins i s).faultKind.toNat = 2 ↔ s.fault.kind = .stackUnderflow) ∧
    ((outputPins i s).faultKind.toNat = 3 ↔ s.fault.kind = .unimplementedInstruction) ∧
    ((outputPins i s).faultKind.toNat = 4 ↔ s.fault.kind = .fetchRange) ∧
    (s.pc.toNat ≤ 4094 → (outputPins i s).memAddr =
      some (BitVec.ofNat 12 s.pc.toNat, BitVec.ofNat 12 (s.pc.toNat + 1))) ∧
    (4094 < s.pc.toNat → (outputPins i s).memAddr = none)

/-! ## System instructions -/

/-- HALT ends the run in every state: run_state becomes HALTED; pc, registers, stack, sp, memory and the fault record are
unchanged; the word is 0x0000 (41_system.md R100). -/
def Obligations.HaltEndsTheRun : Prop :=
  decodeWord 0x0000 = .ok .halt ∧
  ∀ s : State, ∃ t, exec .halt s = .next t ∧ t.runState = .halted ∧ t.pc = s.pc ∧ SameRegsExcept [] s t ∧
    SameMemory s t ∧ t.sp = s.sp ∧ t.liveStack = s.liveStack ∧ t.fault = s.fault ∧ t.ir = s.ir ∧ t.fetchPc = s.fetchPc

/-- 41_system.md R101: CLEAR changes nothing in any state and does not fault; the word is 0x00E0. -/
def Obligations.ClearHasNoEffect : Prop :=
  decodeWord 0x00E0 = .ok .clear ∧
  ∀ s : State, ∃ t, exec .clear s = .next t ∧ t.pc = s.pc ∧ SameRegsExcept [] s t ∧ SameSystem s t

/-! ## Control transfer -/

/-- RETURN with sp in 1 to 16 takes the last live entry into pc and lowers sp by 1, and leaves registers, the other live
entries, memory and control state; with sp = 0 it raises StackUnderflowFault and changes nothing else
(42_control_transfer.md R105; the payload of its fault is the spec's own decision D7). -/
def Obligations.ReturnPopsOrUnderflows : Prop :=
  decodeWord 0x00EE = .ok .ret ∧
  (∀ s : State, s.sp ≠ 0 → SpInRange s →
    ∃ t, exec .ret s = .next t ∧ t.sp.toNat + 1 = s.sp.toNat ∧ s.liveStack = t.liveStack ++ [t.pc] ∧
      SameRegsExcept [] s t ∧ SameMemory s t ∧ t.runState = s.runState ∧ t.fault = s.fault ∧ t.ir = s.ir ∧
      t.fetchPc = s.fetchPc) ∧
  (∀ s : State, s.sp = 0 → ∃ t, exec .ret s = .next t ∧ RaisedFrom .stackUnderflow s.ir s.fetchPc s t)

/-- 42_control_transfer.md R106: JUMP sets pc to the zero-extended address, in every state, and changes nothing else. -/
def Obligations.JumpSetsPc : Prop :=
  ∀ a : Addr, decodeWord (0x1#4 ++ a) = .ok (.jump a) ∧
    ∀ s : State, ∃ t, exec (.jump a) s = .next t ∧ t.pc.toNat = a.toNat ∧ SameRegsExcept [] s t ∧ SameSystem s t

/-- CALL (42_control_transfer.md R107; the payload of its fault is the spec's own decision D7). With sp in 0 to 15 it
pushes the advanced pc, raises sp by 1 and sets pc to the zero-extended address, leaving registers, the other live
entries, memory and control state; with sp = 16 it raises StackOverflowFault with the word and its address, and changes
nothing else. -/
def Obligations.CallPushesOrOverflows : Prop :=
  ∀ a : Addr, decodeWord (0x2#4 ++ a) = .ok (.call a) ∧
    (∀ s : State, s.sp.toNat < 16 →
      ∃ t, exec (.call a) s = .next t ∧ t.pc.toNat = a.toNat ∧ t.sp.toNat = s.sp.toNat + 1 ∧
        t.liveStack = s.liveStack ++ [s.pc] ∧ SameRegsExcept [] s t ∧ SameMemory s t ∧ t.runState = s.runState ∧
        t.fault = s.fault ∧ t.ir = s.ir ∧ t.fetchPc = s.fetchPc) ∧
    (∀ s : State, s.sp = 16 →
      ∃ t, exec (.call a) s = .next t ∧ RaisedFrom .stackOverflow s.ir s.fetchPc s t)

/-! ## Skips -/

/-- 43_skip.md R115: SKIP-EQ-IMM moves pc by an extra 2 when V[x] = kk, and changes nothing else. -/
def Obligations.SkipEqImmSkipsOnEqual : Prop :=
  ∀ (x : RegIdx) (kk : Byte), decodeWord (0x3#4 ++ x ++ kk) = .ok (.skipEqImm x kk) ∧
    ∀ s : State, ∃ t, exec (.skipEqImm x kk) s = .next t ∧
      t.pc = (if readReg x s = kk then s.pc + 2 else s.pc) ∧ SameRegsExcept [] s t ∧ SameSystem s t

/-- 43_skip.md R116: SKIP-NEQ-IMM moves pc by an extra 2 when V[x] and kk differ, and changes nothing else. -/
def Obligations.SkipNeqImmSkipsOnDifferent : Prop :=
  ∀ (x : RegIdx) (kk : Byte), decodeWord (0x4#4 ++ x ++ kk) = .ok (.skipNeqImm x kk) ∧
    ∀ s : State, ∃ t, exec (.skipNeqImm x kk) s = .next t ∧
      t.pc = (if readReg x s ≠ kk then s.pc + 2 else s.pc) ∧ SameRegsExcept [] s t ∧ SameSystem s t

/-- SKIP-EQ-REG moves pc by an extra 2 when V[x] = V[y], always when x = y, and changes nothing else; the words `0x5xy1`
to `0x5xyF` are illegal (43_skip.md R117; that they are illegal is the spec's own decision D9). -/
def Obligations.SkipEqRegSkipsOnEqual : Prop :=
  ∀ x y : RegIdx, decodeWord (0x5#4 ++ x ++ y ++ 0x0#4) = .ok (.skipEqReg x y) ∧
    (∀ n : BitVec 4, n ≠ 0 → ∃ e, decodeWord (0x5#4 ++ x ++ y ++ n) = .error e) ∧
    ∀ s : State, ∃ t, exec (.skipEqReg x y) s = .next t ∧
      t.pc = (if readReg x s = readReg y s then s.pc + 2 else s.pc) ∧ (x = y → t.pc = s.pc + 2) ∧
      SameRegsExcept [] s t ∧ SameSystem s t

/-- The law of the skips, property P6 (43_skip.md R118, whose frame the spec derives from R115 and R116): for every
fetch address `f`, every x and kk and every value of V[x], SKIP-EQ-IMM leaves pc at f + 4 if V[x] = kk and at f + 2
otherwise, and SKIP-NEQ-IMM exactly the other way round; nothing besides pc changes. Here `s` is the state before the
handler, with pc = f + 2. -/
def Obligations.SkipsAreComplementary : Prop :=
  ∀ (x : RegIdx) (kk : Byte) (f : Word) (s : State), s.pc = f + 2 →
    ∃ t u, exec (.skipEqImm x kk) s = .next t ∧ exec (.skipNeqImm x kk) s = .next u ∧
      (readReg x s = kk → t.pc = f + 4 ∧ u.pc = f + 2) ∧ (readReg x s ≠ kk → t.pc = f + 2 ∧ u.pc = f + 4) ∧
      SameRegsExcept [] s t ∧ SameSystem s t ∧ SameRegsExcept [] s u ∧ SameSystem s u

/-! ## Register-immediate instructions -/

/-- 44_immediate.md R125: LOAD-IMM writes kk to V[x], for every x (V[15] included), and changes nothing else. -/
def Obligations.LoadImmWritesImmediate : Prop :=
  ∀ (x : RegIdx) (kk : Byte), decodeWord (0x6#4 ++ x ++ kk) = .ok (.loadImm x kk) ∧
    ∀ s : State, ∃ t, exec (.loadImm x kk) s = .next t ∧ readReg x t = kk ∧ SameRegsExcept [x] s t ∧ t.pc = s.pc ∧
      SameSystem s t

/-- 44_immediate.md R126: ADD-IMM writes the sum modulo 256 to V[x], for every x (V[15] included), and changes nothing
else: V[15] is not written unless it is the destination. -/
def Obligations.AddImmWrapsWithoutFlag : Prop :=
  ∀ (x : RegIdx) (kk : Byte), decodeWord (0x7#4 ++ x ++ kk) = .ok (.addImm x kk) ∧
    ∀ s : State, ∃ t, exec (.addImm x kk) s = .next t ∧
      (readReg x t).toNat = ((readReg x s).toNat + kk.toNat) % 256 ∧ SameRegsExcept [x] s t ∧ t.pc = s.pc ∧
      SameSystem s t

/-! ## Register-register instructions -/

/-- 45_alu_register.md R130: LOAD-REG copies V[y] to V[x], for every x and y, and changes nothing else. -/
def Obligations.LoadRegCopies : Prop :=
  ∀ x y : RegIdx, decodeWord (0x8#4 ++ x ++ y ++ 0x0#4) = .ok (.loadReg x y) ∧
    ∀ s : State, ∃ t, exec (.loadReg x y) s = .next t ∧ readReg x t = readReg y s ∧ SameRegsExcept [x] s t ∧
      t.pc = s.pc ∧ SameSystem s t

/-- 45_alu_register.md R131: OR writes the bitwise or, each bit position on its own, to V[x]; no flag, nothing else. -/
def Obligations.OrIsBitwise : Prop :=
  ∀ x y : RegIdx, decodeWord (0x8#4 ++ x ++ y ++ 0x1#4) = .ok (.orReg x y) ∧
    ∀ s : State, ∃ t, exec (.orReg x y) s = .next t ∧
      (∀ k < 8, (readReg x t).getLsbD k = ((readReg x s).getLsbD k || (readReg y s).getLsbD k)) ∧
      SameRegsExcept [x] s t ∧ t.pc = s.pc ∧ SameSystem s t

/-- 45_alu_register.md R132: AND writes the bitwise and, each bit position on its own, to V[x]; no flag, nothing else. -/
def Obligations.AndIsBitwise : Prop :=
  ∀ x y : RegIdx, decodeWord (0x8#4 ++ x ++ y ++ 0x2#4) = .ok (.andReg x y) ∧
    ∀ s : State, ∃ t, exec (.andReg x y) s = .next t ∧
      (∀ k < 8, (readReg x t).getLsbD k = ((readReg x s).getLsbD k && (readReg y s).getLsbD k)) ∧
      SameRegsExcept [x] s t ∧ t.pc = s.pc ∧ SameSystem s t

/-- 45_alu_register.md R133: XOR writes the bitwise exclusive or, each bit position on its own, to V[x], 0x00 when x = y; no
flag, nothing else. -/
def Obligations.XorIsBitwise : Prop :=
  ∀ x y : RegIdx, decodeWord (0x8#4 ++ x ++ y ++ 0x3#4) = .ok (.xorReg x y) ∧
    ∀ s : State, ∃ t, exec (.xorReg x y) s = .next t ∧
      (∀ k < 8, (readReg x t).getLsbD k = ((readReg x s).getLsbD k ^^ (readReg y s).getLsbD k)) ∧
      (x = y → readReg x t = 0x00) ∧ SameRegsExcept [x] s t ∧ t.pc = s.pc ∧ SameSystem s t

/-- ADD-REG writes the sum modulo 256 to V[x] and then 0x01 or 0x00 to V[15] as the sum exceeds 255 or not; both sources
are read first; when x = 15 the flag write wins, and nothing but V[x] and V[15] changes (45_alu_register.md R134). The case
x = 15 is the spec's own decision D8 (92_eei_decisions.md). -/
def Obligations.AddRegWritesSumThenCarry : Prop :=
  ∀ x y : RegIdx, decodeWord (0x8#4 ++ x ++ y ++ 0x4#4) = .ok (.addReg x y) ∧
    ∀ s : State, ∃ t, exec (.addReg x y) s = .next t ∧
      readReg 0xF t = (if 255 < (readReg x s).toNat + (readReg y s).toNat then 0x01 else 0x00) ∧
      (x ≠ 0xF → (readReg x t).toNat = ((readReg x s).toNat + (readReg y s).toNat) % 256) ∧
      SameRegsExcept [x, 0xF] s t ∧ t.pc = s.pc ∧ SameSystem s t

/-- The exact carry law: `a + b = 256 * V[15]' + V[x]'` after ADD-REG with x not 15 (45_alu_register.md R136). -/
def Obligations.CarryLawIsExact : Prop :=
  ∀ (x y : RegIdx) (s t : State), x ≠ 0xF → exec (.addReg x y) s = .next t →
    (readReg x s).toNat + (readReg y s).toNat = 256 * (readReg 0xF t).toNat + (readReg x t).toNat ∧
    (readReg 0xF t).toNat ≤ 1

/-- The same register as source and destination: LOAD-REG, OR and AND leave it, XOR clears it, ADD-REG doubles it with its
old bit 7 as the carry (45_alu_register.md R138; for ADD-REG with x = 15 the flag write wins, decision D8). -/
def Obligations.SameRegisterTwice : Prop :=
  ∀ (x : RegIdx) (s : State),
    (∃ t, exec (.loadReg x x) s = .next t ∧ SameRegsExcept [] s t) ∧
    (∃ t, exec (.orReg x x) s = .next t ∧ SameRegsExcept [] s t) ∧
    (∃ t, exec (.andReg x x) s = .next t ∧ SameRegsExcept [] s t) ∧
    (∃ t, exec (.xorReg x x) s = .next t ∧ readReg x t = 0x00) ∧
    (∃ t, exec (.addReg x x) s = .next t ∧
      readReg 0xF t = (if (readReg x s).getLsbD 7 then 0x01 else 0x00) ∧
      (x ≠ 0xF → readReg x t = readReg x s <<< 1))
end

