-- ==== Sys2Proof/Laws/Decode.lean ====
section
/-! SUPPORT. The fields of a word put together from fields, and a word put back together from its fields: what every
statement about decoding and encoding rests on. -/

namespace Sys2Proof

/-- The high part of a concatenation. -/
theorem extract_append_high {v w : Nat} (hi : BitVec v) (lo : BitVec w) : (hi ++ lo).extractLsb' w v = hi := by
  rw [BitVec.extractLsb'_append_eq_of_le (Nat.le_refl w), Nat.sub_self, BitVec.extractLsb'_eq_self]

/-- Two adjoining parts of a value, put together. -/
theorem extract_append_extract {n : Nat} (w : BitVec n) (lo l₁ l₂ : Nat) :
    w.extractLsb' (lo + l₁) l₂ ++ w.extractLsb' lo l₁ = w.extractLsb' lo (l₂ + l₁) :=
  BitVec.extractLsb'_append_extractLsb'_eq_extractLsb' rfl

/-- The low part of a concatenation. -/
theorem extract_append_low {v w : Nat} (hi : BitVec v) (lo : BitVec w) : (hi ++ lo).extractLsb' 0 w = lo := by
  rw [BitVec.extractLsb'_append_eq_of_add_le (by omega), BitVec.extractLsb'_eq_self]

theorem highByte_wordOfBytes (hi lo : Byte) : highByte (wordOfBytes hi lo) = hi := extract_append_high hi lo

theorem lowByte_wordOfBytes (hi lo : Byte) : lowByte (wordOfBytes hi lo) = lo := extract_append_low hi lo

/-- A word is its two bytes, big-endian. -/
theorem wordOfBytes_bytes (w : Word) : wordOfBytes (highByte w) (lowByte w) = w :=
  (extract_append_extract w 0 8 8).trans BitVec.extractLsb'_eq_self

/-- Decoding the bytes of a word is decoding the word. -/
theorem decode_wordBytes (w : Word) (rest : List Byte) :
    decode (wordBytes w ++ rest) = (decodeWord w).map (·, rest) := by
  simp [decode, wordBytes, wordOfBytes_bytes]

/-! ## The fields of a word built from fields, by format -/

theorem op_append (op : BitVec 4) (a : Addr) : (op ++ a : Word).extractLsb' 12 4 = op := extract_append_high op a

theorem addr_append (op : BitVec 4) (a : Addr) : (op ++ a : Word).extractLsb' 0 12 = a := extract_append_low op a

theorem op_append₃ (op x : BitVec 4) (kk : Byte) : (op ++ x ++ kk : Word).extractLsb' 12 4 = op := by
  rw [BitVec.extractLsb'_append_eq_of_le (by omega)]
  exact extract_append_high op x

theorem x_append₃ (op x : BitVec 4) (kk : Byte) : (op ++ x ++ kk : Word).extractLsb' 8 4 = x := by
  rw [BitVec.extractLsb'_append_eq_of_le (by omega)]
  exact extract_append_low op x

theorem kk_append₃ (op x : BitVec 4) (kk : Byte) : (op ++ x ++ kk : Word).extractLsb' 0 8 = kk :=
  extract_append_low (op ++ x) kk

theorem op_append₄ (op x y n : BitVec 4) : (op ++ x ++ y ++ n : Word).extractLsb' 12 4 = op := by
  rw [BitVec.extractLsb'_append_eq_of_le (by omega), BitVec.extractLsb'_append_eq_of_le (by omega)]
  exact extract_append_high op x

theorem x_append₄ (op x y n : BitVec 4) : (op ++ x ++ y ++ n : Word).extractLsb' 8 4 = x := by
  rw [BitVec.extractLsb'_append_eq_of_le (by omega), BitVec.extractLsb'_append_eq_of_le (by omega)]
  exact extract_append_low op x

theorem y_append₄ (op x y n : BitVec 4) : (op ++ x ++ y ++ n : Word).extractLsb' 4 4 = y := by
  rw [BitVec.extractLsb'_append_eq_of_le (by omega)]
  exact extract_append_low (op ++ x) y

theorem n_append₄ (op x y n : BitVec 4) : (op ++ x ++ y ++ n : Word).extractLsb' 0 4 = n :=
  extract_append_low (op ++ x ++ y) n

/-- The fields of a word of format I. -/
theorem fields_append₃ (op x : BitVec 4) (kk : Byte) :
    (fields (op ++ x ++ kk)).op = op ∧ (fields (op ++ x ++ kk)).x = x ∧ (fields (op ++ x ++ kk)).kk = kk :=
  ⟨op_append₃ op x kk, x_append₃ op x kk, kk_append₃ op x kk⟩

/-- The fields of a word of format R. -/
theorem fields_append₄ (op x y n : BitVec 4) :
    (fields (op ++ x ++ y ++ n)).op = op ∧ (fields (op ++ x ++ y ++ n)).x = x ∧
      (fields (op ++ x ++ y ++ n)).y = y ∧ (fields (op ++ x ++ y ++ n)).n = n :=
  ⟨op_append₄ op x y n, x_append₄ op x y n, y_append₄ op x y n, n_append₄ op x y n⟩

/-! ## A word from its fields, by format -/

theorem word_of_op_addr (w : Word) : ((fields w).op ++ (fields w).addr : Word) = w :=
  (extract_append_extract w 0 12 4).trans BitVec.extractLsb'_eq_self

theorem addr_of_x_kk (w : Word) : ((fields w).x ++ (fields w).kk : Addr) = (fields w).addr :=
  extract_append_extract w 0 8 4

theorem kk_of_y_n (w : Word) : ((fields w).y ++ (fields w).n : Byte) = (fields w).kk :=
  extract_append_extract w 0 4 4

theorem op_x_append (w : Word) : ((fields w).op ++ (fields w).x : Byte) = highByte w :=
  extract_append_extract w 8 4 4

theorem word_of_op_x_kk (w : Word) : ((fields w).op ++ (fields w).x ++ (fields w).kk : Word) = w :=
  (congrArg (fun h : Byte => (h ++ (fields w).kk : Word)) (op_x_append w)).trans (wordOfBytes_bytes w)

theorem op_x_y_append (w : Word) :
    ((fields w).op ++ (fields w).x ++ (fields w).y : BitVec 12) = w.extractLsb' 4 12 :=
  (congrArg (fun h : Byte => (h ++ (fields w).y : BitVec 12)) (op_x_append w)).trans (extract_append_extract w 4 4 8)

theorem word_of_op_x_y_n (w : Word) :
    ((fields w).op ++ (fields w).x ++ (fields w).y ++ (fields w).n : Word) = w :=
  (congrArg (fun h : BitVec 12 => (h ++ (fields w).n : Word)) (op_x_y_append w)).trans
    ((extract_append_extract w 0 4 12).trans BitVec.extractLsb'_eq_self)

/-! ## The decoder, by cases -/

theorem decodeFamily0_cases {w : Word} {i : Instr} (h : decodeFamily0 w = .ok i) :
    (w = 0x0000 ∧ i = .halt) ∨ (w = 0x00E0 ∧ i = .clear) ∨ (w = 0x00EE ∧ i = .ret) := by
  unfold decodeFamily0 at h
  repeat' split at h
  all_goals first
    | (cases h; done)
    | (rw [Except.ok.injEq] at h; subst h; simp [*])

theorem decodeFamily5_cases {f : Fields} {i : Instr} (h : decodeFamily5 f = .ok i) :
    f.n = 0 ∧ i = .skipEqReg f.x f.y := by
  unfold decodeFamily5 at h
  split at h
  · exact ⟨‹_›, (Except.ok.inj h).symm⟩
  · cases h

theorem decodeFamily8_cases {f : Fields} {i : Instr} (h : decodeFamily8 f = .ok i) :
    (f.n = 0 ∧ i = .loadReg f.x f.y) ∨ (f.n = 1 ∧ i = .orReg f.x f.y) ∨ (f.n = 2 ∧ i = .andReg f.x f.y) ∨
    (f.n = 3 ∧ i = .xorReg f.x f.y) ∨ (f.n = 4 ∧ i = .addReg f.x f.y) := by
  unfold decodeFamily8 at h
  by_cases h0 : f.n = 0
  · rw [if_pos h0] at h; exact .inl ⟨h0, (Except.ok.inj h).symm⟩
  rw [if_neg h0] at h; right
  by_cases h1 : f.n = 1
  · rw [if_pos h1] at h; exact .inl ⟨h1, (Except.ok.inj h).symm⟩
  rw [if_neg h1] at h; right
  by_cases h2 : f.n = 2
  · rw [if_pos h2] at h; exact .inl ⟨h2, (Except.ok.inj h).symm⟩
  rw [if_neg h2] at h; right
  by_cases h3 : f.n = 3
  · rw [if_pos h3] at h; exact .inl ⟨h3, (Except.ok.inj h).symm⟩
  rw [if_neg h3] at h; right
  by_cases h4 : f.n = 4
  · rw [if_pos h4] at h; exact ⟨h4, (Except.ok.inj h).symm⟩
  rw [if_neg h4] at h; cases h

/-- Everything `decodeWord` can answer, with the fields it read (30_encoding.md R64). -/
theorem decodeWord_cases {w : Word} {i : Instr} (h : decodeWord w = .ok i) :
    ((fields w).op = 0 ∧ decodeFamily0 w = .ok i) ∨
    ((fields w).op = 1 ∧ i = .jump (fields w).addr) ∨
    ((fields w).op = 2 ∧ i = .call (fields w).addr) ∨
    ((fields w).op = 3 ∧ i = .skipEqImm (fields w).x (fields w).kk) ∨
    ((fields w).op = 4 ∧ i = .skipNeqImm (fields w).x (fields w).kk) ∨
    ((fields w).op = 5 ∧ decodeFamily5 (fields w) = .ok i) ∨
    ((fields w).op = 6 ∧ i = .loadImm (fields w).x (fields w).kk) ∨
    ((fields w).op = 7 ∧ i = .addImm (fields w).x (fields w).kk) ∨
    ((fields w).op = 8 ∧ decodeFamily8 (fields w) = .ok i) := by
  unfold decodeWord at h
  by_cases h0 : (fields w).op = 0
  · rw [if_pos h0] at h; exact .inl ⟨h0, h⟩
  rw [if_neg h0] at h; right
  by_cases h1 : (fields w).op = 1
  · rw [if_pos h1] at h; exact .inl ⟨h1, (Except.ok.inj h).symm⟩
  rw [if_neg h1] at h; right
  by_cases h2 : (fields w).op = 2
  · rw [if_pos h2] at h; exact .inl ⟨h2, (Except.ok.inj h).symm⟩
  rw [if_neg h2] at h; right
  by_cases h3 : (fields w).op = 3
  · rw [if_pos h3] at h; exact .inl ⟨h3, (Except.ok.inj h).symm⟩
  rw [if_neg h3] at h; right
  by_cases h4 : (fields w).op = 4
  · rw [if_pos h4] at h; exact .inl ⟨h4, (Except.ok.inj h).symm⟩
  rw [if_neg h4] at h; right
  by_cases h5 : (fields w).op = 5
  · rw [if_pos h5] at h; exact .inl ⟨h5, h⟩
  rw [if_neg h5] at h; right
  by_cases h6 : (fields w).op = 6
  · rw [if_pos h6] at h; exact .inl ⟨h6, (Except.ok.inj h).symm⟩
  rw [if_neg h6] at h; right
  by_cases h7 : (fields w).op = 7
  · rw [if_pos h7] at h; exact .inl ⟨h7, (Except.ok.inj h).symm⟩
  rw [if_neg h7] at h; right
  by_cases h8 : (fields w).op = 8
  · rw [if_pos h8] at h; exact ⟨h8, h⟩
  rw [if_neg h8] at h; cases h

end Sys2Proof
end

