-- ==== Sys2Proof/Laws/State.lean ====
section
/-! SUPPORT. One lemma per field of State per update, so that no proof unfolds a record update; and what the reads give
after each update. -/

namespace Sys2Proof.Machine

/-! ### writeMem -/

@[simp] theorem writeMem_regs (a : Addr) (b : Byte) (s : State) : (writeMem a b s).regs = s.regs := rfl
@[simp] theorem writeMem_pc (a : Addr) (b : Byte) (s : State) : (writeMem a b s).pc = s.pc := rfl
@[simp] theorem writeMem_stack (a : Addr) (b : Byte) (s : State) : (writeMem a b s).stack = s.stack := rfl
@[simp] theorem writeMem_sp (a : Addr) (b : Byte) (s : State) : (writeMem a b s).sp = s.sp := rfl
@[simp] theorem writeMem_mem (a : Addr) (b : Byte) (s : State) : (writeMem a b s).mem = s.mem.write a.toNat b := rfl
@[simp] theorem writeMem_runState (a : Addr) (b : Byte) (s : State) : (writeMem a b s).runState = s.runState := rfl
@[simp] theorem writeMem_fault (a : Addr) (b : Byte) (s : State) : (writeMem a b s).fault = s.fault := rfl
@[simp] theorem writeMem_ir (a : Addr) (b : Byte) (s : State) : (writeMem a b s).ir = s.ir := rfl
@[simp] theorem writeMem_fetchPc (a : Addr) (b : Byte) (s : State) : (writeMem a b s).fetchPc = s.fetchPc := rfl

/-! ### writeReg -/

@[simp] theorem writeReg_regs (r : RegIdx) (v : Byte) (s : State) : (writeReg r v s).regs = s.regs.set r.toNat v r.isLt := rfl
@[simp] theorem writeReg_pc (r : RegIdx) (v : Byte) (s : State) : (writeReg r v s).pc = s.pc := rfl
@[simp] theorem writeReg_stack (r : RegIdx) (v : Byte) (s : State) : (writeReg r v s).stack = s.stack := rfl
@[simp] theorem writeReg_sp (r : RegIdx) (v : Byte) (s : State) : (writeReg r v s).sp = s.sp := rfl
@[simp] theorem writeReg_mem (r : RegIdx) (v : Byte) (s : State) : (writeReg r v s).mem = s.mem := rfl
@[simp] theorem writeReg_runState (r : RegIdx) (v : Byte) (s : State) : (writeReg r v s).runState = s.runState := rfl
@[simp] theorem writeReg_fault (r : RegIdx) (v : Byte) (s : State) : (writeReg r v s).fault = s.fault := rfl
@[simp] theorem writeReg_ir (r : RegIdx) (v : Byte) (s : State) : (writeReg r v s).ir = s.ir := rfl
@[simp] theorem writeReg_fetchPc (r : RegIdx) (v : Byte) (s : State) : (writeReg r v s).fetchPc = s.fetchPc := rfl

/-! ### setPc -/

@[simp] theorem setPc_regs (t : Word) (s : State) : (setPc t s).regs = s.regs := rfl
@[simp] theorem setPc_pc (t : Word) (s : State) : (setPc t s).pc = t := rfl
@[simp] theorem setPc_stack (t : Word) (s : State) : (setPc t s).stack = s.stack := rfl
@[simp] theorem setPc_sp (t : Word) (s : State) : (setPc t s).sp = s.sp := rfl
@[simp] theorem setPc_mem (t : Word) (s : State) : (setPc t s).mem = s.mem := rfl
@[simp] theorem setPc_runState (t : Word) (s : State) : (setPc t s).runState = s.runState := rfl
@[simp] theorem setPc_fault (t : Word) (s : State) : (setPc t s).fault = s.fault := rfl
@[simp] theorem setPc_ir (t : Word) (s : State) : (setPc t s).ir = s.ir := rfl
@[simp] theorem setPc_fetchPc (t : Word) (s : State) : (setPc t s).fetchPc = s.fetchPc := rfl

/-! ### setSp -/

@[simp] theorem setSp_regs (v : StackPtr) (s : State) : (setSp v s).regs = s.regs := rfl
@[simp] theorem setSp_pc (v : StackPtr) (s : State) : (setSp v s).pc = s.pc := rfl
@[simp] theorem setSp_stack (v : StackPtr) (s : State) : (setSp v s).stack = s.stack := rfl
@[simp] theorem setSp_sp (v : StackPtr) (s : State) : (setSp v s).sp = v := rfl
@[simp] theorem setSp_mem (v : StackPtr) (s : State) : (setSp v s).mem = s.mem := rfl
@[simp] theorem setSp_runState (v : StackPtr) (s : State) : (setSp v s).runState = s.runState := rfl
@[simp] theorem setSp_fault (v : StackPtr) (s : State) : (setSp v s).fault = s.fault := rfl
@[simp] theorem setSp_ir (v : StackPtr) (s : State) : (setSp v s).ir = s.ir := rfl
@[simp] theorem setSp_fetchPc (v : StackPtr) (s : State) : (setSp v s).fetchPc = s.fetchPc := rfl

/-! ### setRunState -/

@[simp] theorem setRunState_regs (r : RunState) (s : State) : (setRunState r s).regs = s.regs := rfl
@[simp] theorem setRunState_pc (r : RunState) (s : State) : (setRunState r s).pc = s.pc := rfl
@[simp] theorem setRunState_stack (r : RunState) (s : State) : (setRunState r s).stack = s.stack := rfl
@[simp] theorem setRunState_sp (r : RunState) (s : State) : (setRunState r s).sp = s.sp := rfl
@[simp] theorem setRunState_mem (r : RunState) (s : State) : (setRunState r s).mem = s.mem := rfl
@[simp] theorem setRunState_runState (r : RunState) (s : State) : (setRunState r s).runState = r := rfl
@[simp] theorem setRunState_fault (r : RunState) (s : State) : (setRunState r s).fault = s.fault := rfl
@[simp] theorem setRunState_ir (r : RunState) (s : State) : (setRunState r s).ir = s.ir := rfl
@[simp] theorem setRunState_fetchPc (r : RunState) (s : State) : (setRunState r s).fetchPc = s.fetchPc := rfl

/-! ### setFault -/

@[simp] theorem setFault_regs (f : FaultRecord) (s : State) : (setFault f s).regs = s.regs := rfl
@[simp] theorem setFault_pc (f : FaultRecord) (s : State) : (setFault f s).pc = s.pc := rfl
@[simp] theorem setFault_stack (f : FaultRecord) (s : State) : (setFault f s).stack = s.stack := rfl
@[simp] theorem setFault_sp (f : FaultRecord) (s : State) : (setFault f s).sp = s.sp := rfl
@[simp] theorem setFault_mem (f : FaultRecord) (s : State) : (setFault f s).mem = s.mem := rfl
@[simp] theorem setFault_runState (f : FaultRecord) (s : State) : (setFault f s).runState = s.runState := rfl
@[simp] theorem setFault_fault (f : FaultRecord) (s : State) : (setFault f s).fault = f := rfl
@[simp] theorem setFault_ir (f : FaultRecord) (s : State) : (setFault f s).ir = s.ir := rfl
@[simp] theorem setFault_fetchPc (f : FaultRecord) (s : State) : (setFault f s).fetchPc = s.fetchPc := rfl

/-! ### setLatches -/

@[simp] theorem setLatches_regs (w f : Word) (s : State) : (setLatches w f s).regs = s.regs := rfl
@[simp] theorem setLatches_pc (w f : Word) (s : State) : (setLatches w f s).pc = s.pc := rfl
@[simp] theorem setLatches_stack (w f : Word) (s : State) : (setLatches w f s).stack = s.stack := rfl
@[simp] theorem setLatches_sp (w f : Word) (s : State) : (setLatches w f s).sp = s.sp := rfl
@[simp] theorem setLatches_mem (w f : Word) (s : State) : (setLatches w f s).mem = s.mem := rfl
@[simp] theorem setLatches_runState (w f : Word) (s : State) : (setLatches w f s).runState = s.runState := rfl
@[simp] theorem setLatches_fault (w f : Word) (s : State) : (setLatches w f s).fault = s.fault := rfl
@[simp] theorem setLatches_ir (w f : Word) (s : State) : (setLatches w f s).ir = w := rfl
@[simp] theorem setLatches_fetchPc (w f : Word) (s : State) : (setLatches w f s).fetchPc = f := rfl

/-! ### writeStack -/

@[simp] theorem writeStack_regs (i : Fin 16) (v : Word) (s : State) : (writeStack i v s).regs = s.regs := rfl
@[simp] theorem writeStack_pc (i : Fin 16) (v : Word) (s : State) : (writeStack i v s).pc = s.pc := rfl
@[simp] theorem writeStack_stack (i : Fin 16) (v : Word) (s : State) : (writeStack i v s).stack = s.stack.set i.val v := rfl
@[simp] theorem writeStack_sp (i : Fin 16) (v : Word) (s : State) : (writeStack i v s).sp = s.sp := rfl
@[simp] theorem writeStack_mem (i : Fin 16) (v : Word) (s : State) : (writeStack i v s).mem = s.mem := rfl
@[simp] theorem writeStack_runState (i : Fin 16) (v : Word) (s : State) : (writeStack i v s).runState = s.runState := rfl
@[simp] theorem writeStack_fault (i : Fin 16) (v : Word) (s : State) : (writeStack i v s).fault = s.fault := rfl
@[simp] theorem writeStack_ir (i : Fin 16) (v : Word) (s : State) : (writeStack i v s).ir = s.ir := rfl
@[simp] theorem writeStack_fetchPc (i : Fin 16) (v : Word) (s : State) : (writeStack i v s).fetchPc = s.fetchPc := rfl

/-! ### Reads after updates -/

@[simp] theorem readReg_writeMem (a : Addr) (b : Byte) (r : RegIdx) (s : State) : readReg r (writeMem a b s) = readReg r s := rfl
@[simp] theorem readReg_setPc (t : Word) (r : RegIdx) (s : State) : readReg r (setPc t s) = readReg r s := rfl
@[simp] theorem readReg_setSp (v : StackPtr) (r : RegIdx) (s : State) : readReg r (setSp v s) = readReg r s := rfl
@[simp] theorem readReg_setRunState (q : RunState) (r : RegIdx) (s : State) : readReg r (setRunState q s) = readReg r s := rfl
@[simp] theorem readReg_setFault (f : FaultRecord) (r : RegIdx) (s : State) : readReg r (setFault f s) = readReg r s := rfl
@[simp] theorem readReg_setLatches (w f : Word) (r : RegIdx) (s : State) : readReg r (setLatches w f s) = readReg r s := rfl
@[simp] theorem readReg_writeStack (i : Fin 16) (v : Word) (r : RegIdx) (s : State) : readReg r (writeStack i v s) = readReg r s := rfl

@[simp] theorem readMem_writeReg (c : Addr) (r : RegIdx) (v : Byte) (s : State) : readMem c (writeReg r v s) = readMem c s := rfl
@[simp] theorem readMem_setPc (c : Addr) (t : Word) (s : State) : readMem c (setPc t s) = readMem c s := rfl
@[simp] theorem readMem_setSp (c : Addr) (v : StackPtr) (s : State) : readMem c (setSp v s) = readMem c s := rfl
@[simp] theorem readMem_setRunState (c : Addr) (r : RunState) (s : State) : readMem c (setRunState r s) = readMem c s := rfl
@[simp] theorem readMem_setFault (c : Addr) (f : FaultRecord) (s : State) : readMem c (setFault f s) = readMem c s := rfl
@[simp] theorem readMem_setLatches (c : Addr) (w f : Word) (s : State) : readMem c (setLatches w f s) = readMem c s := rfl
@[simp] theorem readMem_writeStack (c : Addr) (i : Fin 16) (v : Word) (s : State) : readMem c (writeStack i v s) = readMem c s := rfl

@[simp] theorem readStack_writeMem (j : Fin 16) (a : Addr) (b : Byte) (s : State) : readStack j (writeMem a b s) = readStack j s := rfl
@[simp] theorem readStack_writeReg (j : Fin 16) (r : RegIdx) (v : Byte) (s : State) : readStack j (writeReg r v s) = readStack j s := rfl
@[simp] theorem readStack_setPc (j : Fin 16) (t : Word) (s : State) : readStack j (setPc t s) = readStack j s := rfl
@[simp] theorem readStack_setSp (j : Fin 16) (v : StackPtr) (s : State) : readStack j (setSp v s) = readStack j s := rfl
@[simp] theorem readStack_setRunState (j : Fin 16) (r : RunState) (s : State) : readStack j (setRunState r s) = readStack j s := rfl
@[simp] theorem readStack_setFault (j : Fin 16) (f : FaultRecord) (s : State) : readStack j (setFault f s) = readStack j s := rfl
@[simp] theorem readStack_setLatches (j : Fin 16) (w f : Word) (s : State) : readStack j (setLatches w f s) = readStack j s := rfl

/-- A register write is seen at its register and nowhere else (10_state.md R21: no aliases, no hardwired register). -/
@[simp] theorem readReg_writeReg (r : RegIdx) (v : Byte) (q : RegIdx) (s : State) :
    readReg q (writeReg r v s) = if q = r then v else readReg q s := by
  simp [writeReg, readReg, Vector.getElem_set, BitVec.toNat_inj, eq_comm]

/-- A stack write is seen at its entry and nowhere else (10_state.md R26). -/
@[simp] theorem readStack_writeStack (i : Fin 16) (v : Word) (j : Fin 16) (s : State) :
    readStack j (writeStack i v s) = if j = i then v else readStack j s := by
  simp [writeStack, readStack, Vector.getElem_set, Fin.ext_iff, eq_comm]

/-- Two register files that read the same at every register are equal. -/
theorem regs_ext {s t : State} (h : ∀ r : RegIdx, readReg r t = readReg r s) : t.regs = s.regs := by
  apply Vector.ext
  intro i hi
  have := h (BitVec.ofNat 4 i)
  simpa [readReg, Nat.mod_eq_of_lt hi] using this

end Sys2Proof.Machine
end

