-- ==== Sys2Proof/Laws/Memory.lean ====
section
/-! SUPPORT. The laws of memory: read after write, and that every memory operation keeps the canonical form. -/

namespace Sys2Proof.Machine

/-- Below the first listed address nothing is listed. -/
theorem Memory.read_of_lt {m : Memory} {a : Nat} (h : ∀ c ∈ m, a < c.1) : Memory.read m a = Config.unloadedByte := by
  induction m with
  | nil => rfl
  | cons c m ih =>
    have hc : a < c.1 := h c (by simp)
    have : c.1 ≠ a := by omega
    simp only [Memory.read, this, if_false]
    exact ih fun d hd => h d (by simp [hd])

/-- Read after write, at the same address and at any other (20_memory.md R40: no two addresses name the same byte). -/
theorem Memory.read_write {m : Memory} (h : m.wf) (a : Nat) (v : Byte) (b : Nat) :
    Memory.read (Memory.write m a v) b = if b = a then v else Memory.read m b := by
  induction m with
  | nil =>
    unfold Memory.write
    split
    · rename_i hv
      split <;> simp [Memory.read, hv]
    · simp [Memory.read, eq_comm]
  | cons c m ih =>
    obtain ⟨hp, hall⟩ := h
    rw [List.pairwise_cons] at hp
    have htail : Memory.wf m := ⟨hp.2, fun d hd => hall d (by simp [hd])⟩
    have hrest : ∀ x, x ≤ c.1 → Memory.read m x = Config.unloadedByte := fun x hx =>
      Memory.read_of_lt fun d hd => by have := hp.1 d hd; omega
    unfold Memory.write
    split
    · rename_i hlt
      split
      · rename_i hv
        by_cases hb : b = a
        · subst hb
          have : c.1 ≠ b := by omega
          simp [Memory.read, this, hrest b (by omega), hv]
        · simp [hb]
      · by_cases hb : b = a
        · simp [Memory.read, hb]
        · have : a ≠ b := fun e => hb e.symm
          simp [Memory.read, hb, this]
    · rename_i hge
      split
      · rename_i heq
        split
        · rename_i hv
          by_cases hb : b = a
          · simp [hb, hrest a (by omega), hv]
          · have : c.1 ≠ b := by omega
            simp [Memory.read, hb, this]
        · by_cases hb : b = a
          · simp [Memory.read, hb]
          · have h1 : a ≠ b := fun e => hb e.symm
            have h2 : c.1 ≠ b := by omega
            simp [Memory.read, hb, h1, h2]
      · rename_i hne
        by_cases hcb : c.1 = b
        · have : b ≠ a := by omega
          simp [Memory.read, hcb, this]
        · simp only [Memory.read, hcb, if_false]
          exact ih htail

/-- Where a written list's entries come from. -/
theorem Memory.mem_write {m : Memory} {a : Nat} {v : Byte} {c : Host.Cell} (h : c ∈ Memory.write m a v) :
    c ∈ m ∨ (c = (a, v) ∧ v ≠ Config.unloadedByte) := by
  induction m with
  | nil =>
    unfold Memory.write at h
    split at h <;> simp_all
  | cons d m ih =>
    unfold Memory.write at h
    split at h
    · split at h
      · exact .inl h
      · rename_i hv
        exact (List.mem_cons.mp h).elim (fun e => .inr ⟨e, hv⟩) .inl
    · split at h
      · split at h
        · exact .inl (List.mem_cons_of_mem _ h)
        · rename_i hv
          exact (List.mem_cons.mp h).elim (fun e => .inr ⟨e, hv⟩) fun e => .inl (List.mem_cons_of_mem _ e)
      · rcases List.mem_cons.mp h with h | h
        · exact .inl (h ▸ List.mem_cons_self)
        · exact (ih h).imp_left (List.mem_cons_of_mem _)

/-- A write keeps the canonical form. -/
theorem Memory.wf_write {m : Memory} (h : m.wf) {a : Nat} (ha : a < 4096) (v : Byte) : (Memory.write m a v).wf := by
  refine ⟨?_, fun c hc => ?_⟩
  · induction m with
    | nil => unfold Memory.write; split <;> simp
    | cons d m ih =>
      obtain ⟨hp, hall⟩ := h
      have hp' := List.pairwise_cons.mp hp
      have htail : Memory.wf m := ⟨hp'.2, fun e he => hall e (by simp [he])⟩
      unfold Memory.write
      split
      · rename_i hlt
        split
        · exact hp
        · refine List.pairwise_cons.mpr ⟨fun e he => ?_, hp⟩
          rcases List.mem_cons.mp he with he | he
          · simpa [he] using hlt
          · have := hp'.1 e he
            simp only at *; omega
      · split
        · rename_i heq
          split
          · exact hp'.2
          · refine List.pairwise_cons.mpr ⟨fun e he => ?_, hp'.2⟩
            have := hp'.1 e he
            simp only at *; omega
        · refine List.pairwise_cons.mpr ⟨fun e he => ?_, ih htail⟩
          rcases Memory.mem_write he with he | ⟨he, -⟩
          · exact hp'.1 e he
          · subst he; simp only at *; omega
  · rcases Memory.mem_write hc with hc | ⟨hc, hv⟩
    · exact h.2 c hc
    · subst hc; exact ⟨ha, hv⟩

theorem Memory.wf_nil : Memory.wf [] := ⟨List.Pairwise.nil, by simp⟩

/-- `State.reset`'s memory has the canonical form. -/
theorem reset_mem_wf : State.reset.mem.wf := Memory.wf_nil

/-- A host write to memory is seen at its address and nowhere else. -/
theorem readMem_writeMem {s : State} (h : s.mem.wf) (a : Addr) (b : Byte) (c : Addr) :
    readMem c (writeMem a b s) = if c = a then b else readMem c s := by
  simp [readMem, writeMem, Memory.read_write h, BitVec.toNat_inj]

theorem writeMem_wf {s : State} (h : s.mem.wf) (a : Addr) (b : Byte) : (writeMem a b s).mem.wf :=
  Memory.wf_write h (by have := a.isLt; omega) b

theorem placeWord_wf {s : State} (h : s.mem.wf) (a : Addr) (w : Word) : (placeWord a w s).mem.wf :=
  writeMem_wf (writeMem_wf h a _) _ _

/-- An image's memory has the canonical form, whatever bytes the host fills. -/
theorem imageMemory_wf (image : List (Addr × Byte)) : (imageMemory image).wf := by
  suffices h : ∀ m : Memory, m.wf → (image.foldl (fun m c => Memory.write m c.1.toNat c.2) m).wf from h [] Memory.wf_nil
  induction image with
  | nil => exact fun _ h => h
  | cons c image ih =>
    exact fun m h => ih _ (Memory.wf_write h (by have := c.1.isLt; omega) c.2)

end Sys2Proof.Machine
end

