-- ==== Sys2Proof/Laws/Ops.lean ====
section
/-! SUPPORT. For each shared operation, what it can do, said once: the call stack, the fetch, raising a fault, the skips,
the sum and the carry, and the live stack under every update. -/

namespace Sys2Proof.Machine

/-! ## The call stack -/

/-- Which values of the stack pointer index an entry: 0 to 15. -/
theorem stackSlot_eq_some {p : StackPtr} {i : Fin 16} : stackSlot p = some i ↔ p.toNat = i.val := by
  unfold stackSlot
  split
  · simp [Fin.ext_iff]
  · rename_i h
    have := i.isLt
    simp only [reduceCtorEq, false_iff]
    omega

theorem stackSlot_eq_none {p : StackPtr} : stackSlot p = none ↔ 16 ≤ p.toNat := by
  unfold stackSlot
  split <;> simp <;> omega

theorem length_liveStack {s : State} (h : SpInRange s) : s.liveStack.length = s.sp.toNat := by
  unfold State.liveStack SpInRange at *
  simp [h]

theorem getElem?_liveStack (s : State) (i : Fin 16) (h : i.val < s.sp.toNat) :
    s.liveStack[i.val]? = some (readStack i s) := by
  simp [State.liveStack, readStack, h]

@[simp] theorem liveStack_writeMem (a : Addr) (b : Byte) (s : State) : (writeMem a b s).liveStack = s.liveStack := rfl
@[simp] theorem liveStack_writeReg (r : RegIdx) (v : Byte) (s : State) : (writeReg r v s).liveStack = s.liveStack := rfl
@[simp] theorem liveStack_setPc (t : Word) (s : State) : (setPc t s).liveStack = s.liveStack := rfl
@[simp] theorem liveStack_setRunState (r : RunState) (s : State) : (setRunState r s).liveStack = s.liveStack := rfl
@[simp] theorem liveStack_setFault (f : FaultRecord) (s : State) : (setFault f s).liveStack = s.liveStack := rfl
@[simp] theorem liveStack_setLatches (w f : Word) (s : State) : (setLatches w f s).liveStack = s.liveStack := rfl

/-- A push adds the value at the live end and touches no live entry. -/
theorem liveStack_push {s : State} {i : Fin 16} (h : s.sp.toNat = i.val) (v : Word) :
    (setSp (s.sp + 1) (writeStack i v s)).liveStack = s.liveStack ++ [v] := by
  have hi := i.isLt
  have hsp : (s.sp + 1).toNat = i.val + 1 := by rw [BitVec.toNat_add]; simp [h]; omega
  simp only [State.liveStack, setSp_sp, setSp_stack, writeStack_stack, hsp, h, Vector.toList_set]
  rw [List.take_add_one, List.take_set_of_le (Nat.le_refl _)]
  simp

/-- A pop takes the last live entry away and touches no other. -/
theorem liveStack_pop {s : State} {i : Fin 16} (h : s.sp.toNat = i.val + 1) :
    s.liveStack = (setSp (s.sp - 1) s).liveStack ++ [readStack i s] := by
  have hsp : (s.sp - 1).toNat = i.val := by
    have := i.isLt
    rw [BitVec.toNat_sub]; simp [h]; omega
  simp only [State.liveStack, setSp_sp, setSp_stack, hsp, h, readStack]
  rw [List.take_add_one]
  simp

/-! ## Fetch and advance -/

theorem fetchable_iff {s : State} : fetchable s = true ↔ s.pc.toNat ≤ 4094 := by
  simp [fetchable, BitVec.le_def]

/-- The fetch reads the two bytes at pc and pc + 1, big-endian (40_step_cycle.md R81). -/
theorem fetchWord_eq (s : State) :
    fetchWord s = wordOfBytes (readMem (BitVec.ofNat 12 s.pc.toNat) s) (readMem (BitVec.ofNat 12 (s.pc.toNat + 1)) s) := by
  have h1 : s.pc.setWidth 12 = BitVec.ofNat 12 s.pc.toNat := BitVec.eq_of_toNat_eq (by simp)
  have h2 : s.pc.setWidth 12 + 1 = BitVec.ofNat 12 (s.pc.toNat + 1) := BitVec.eq_of_toNat_eq (by simp)
  show wordOfBytes (readMem (s.pc.setWidth 12) s) (readMem (s.pc.setWidth 12 + 1) s) = _
  rw [h2, h1]

/-- Everything fetch and advance do: the latches and pc. -/
theorem fetchAndAdvance_eq (s : State) :
    fetchAndAdvance s = setPc (s.pc + 2) (setLatches (fetchWord s) s.pc s) := rfl

@[simp] theorem fetchAndAdvance_regs (s : State) : (fetchAndAdvance s).regs = s.regs := rfl
@[simp] theorem fetchAndAdvance_stack (s : State) : (fetchAndAdvance s).stack = s.stack := rfl
@[simp] theorem fetchAndAdvance_sp (s : State) : (fetchAndAdvance s).sp = s.sp := rfl
@[simp] theorem fetchAndAdvance_mem (s : State) : (fetchAndAdvance s).mem = s.mem := rfl
@[simp] theorem fetchAndAdvance_runState (s : State) : (fetchAndAdvance s).runState = s.runState := rfl
@[simp] theorem fetchAndAdvance_fault (s : State) : (fetchAndAdvance s).fault = s.fault := rfl
@[simp] theorem fetchAndAdvance_pc (s : State) : (fetchAndAdvance s).pc = s.pc + 2 := rfl
@[simp] theorem fetchAndAdvance_ir (s : State) : (fetchAndAdvance s).ir = fetchWord s := rfl
@[simp] theorem fetchAndAdvance_fetchPc (s : State) : (fetchAndAdvance s).fetchPc = s.pc := rfl
@[simp] theorem fetchAndAdvance_liveStack (s : State) : (fetchAndAdvance s).liveStack = s.liveStack := rfl
@[simp] theorem readReg_fetchAndAdvance (r : RegIdx) (s : State) : readReg r (fetchAndAdvance s) = readReg r s := rfl
@[simp] theorem readMem_fetchAndAdvance (a : Addr) (s : State) : readMem a (fetchAndAdvance s) = readMem a s := rfl
@[simp] theorem readStack_fetchAndAdvance (i : Fin 16) (s : State) :
    readStack i (fetchAndAdvance s) = readStack i s := rfl

/-- The spec's own formula for a word, `(hi << 8) | lo`, is the concatenation (20_memory.md R42). -/
theorem shift_or_eq_wordOfBytes (hi lo : Byte) :
    (hi.setWidth 16 <<< 8 ||| lo.setWidth 16 : Word) = wordOfBytes hi lo := by
  apply BitVec.eq_of_getLsbD_eq
  intro i h
  rw [wordOfBytes, BitVec.getLsbD_append, BitVec.getLsbD_or, BitVec.getLsbD_shiftLeft, BitVec.getLsbD_setWidth,
    BitVec.getLsbD_setWidth]
  by_cases h8 : i < 8
  · simp [h8, h]
  · have h16 : i - 8 < 16 := by omega
    have hlo : lo.getLsbD i = false := BitVec.getLsbD_of_ge _ _ (by omega)
    simp only [h8, h, hlo]
    simp
    intro; omega

/-- What `Fetches` says, in the terms of the step. -/
theorem fetches_iff {w : Word} {s : State} :
    Fetches w s ↔ s.runState = .running ∧ s.pc.toNat ≤ 4094 ∧ fetchWord s = w := by
  constructor
  · rintro ⟨hr, hp, hw⟩
    rw [shift_or_eq_wordOfBytes] at hw
    exact ⟨hr, hp, by rw [fetchWord_eq, hw]⟩
  · rintro ⟨hr, hp, hw⟩
    exact ⟨hr, hp, by rw [shift_or_eq_wordOfBytes, ← fetchWord_eq, hw]⟩

/-! ## Raising a fault -/

/-- Raising a fault writes the record and FAULTED, nothing else (60_exceptions.md R155). -/
theorem raise_spec (k : FaultKind) (w f : Word) (s : State) : RaisedFrom k w f s (raise k w f s) :=
  ⟨rfl, rfl, fun _ _ => rfl, rfl, fun _ => rfl, rfl, rfl⟩

@[simp] theorem raise_mem (k : FaultKind) (w f : Word) (s : State) : (raise k w f s).mem = s.mem := rfl
@[simp] theorem raise_sp (k : FaultKind) (w f : Word) (s : State) : (raise k w f s).sp = s.sp := rfl
@[simp] theorem raise_liveStack (k : FaultKind) (w f : Word) (s : State) : (raise k w f s).liveStack = s.liveStack := rfl
@[simp] theorem raise_runState (k : FaultKind) (w f : Word) (s : State) : (raise k w f s).runState = .faulted := rfl
@[simp] theorem raise_fault (k : FaultKind) (w f : Word) (s : State) : (raise k w f s).fault = ⟨k, w, f⟩ := rfl
@[simp] theorem raise_pc (k : FaultKind) (w f : Word) (s : State) : (raise k w f s).pc = s.pc := rfl

/-! ## Skips, the sum, the carry -/

/-- A skip changes pc or nothing (43_skip.md R118). -/
theorem skipIf_eq (c : Bool) (s : State) : skipIf c s = setPc (if c then s.pc + 2 else s.pc) s := by
  cases c <;> rfl

/-- Writing the flag is writing V[15] (10_state.md R22). -/
theorem readReg_writeFlag (v : Byte) (r : RegIdx) (s : State) :
    readReg r (writeFlag v s) = if r = 0xF then v else readReg r s := readReg_writeReg _ _ _ _

theorem wrapSum_toNat (a b : Byte) : (wrapSum a b).toNat = (a.toNat + b.toNat) % 256 := by
  simp [wrapSum, exactSum]

/-- The carry is the quotient of the exact sum by 256 (45_alu_register.md R136). -/
theorem carryOf_toNat (a b : Byte) : (carryOf a b).toNat = (a.toNat + b.toNat) / 256 := by
  have ha := a.isLt
  have hb := b.isLt
  unfold carryOf exactSum
  split <;> simp <;> omega

end Sys2Proof.Machine
end

