-- ==== Sys2Proof/Laws/PerInstr.lean ====
section
/-! SUPPORT. Statements about every instruction as syntax, one lemma per constructor: the encoding of an instruction has
the match bits of its own row of the opcode table under that row's mask (30_encoding.md R66). -/

namespace Sys2Proof.Laws.EncodesInRow

/-- The row of `i`'s mnemonic selects `i`'s word: the whole word in format W, `op` in formats A and I, `op` and `n` in
format R (30_encoding.md R62, R66). -/
def Statement (i : Instr) : Prop :=
  match i.mnemonic.format with
  | .W => ∃ r ∈ opcodeTable, r.mnemonic = i.mnemonic ∧ encode i = r.pattern
  | .A => ∃ r ∈ opcodeTable, r.mnemonic = i.mnemonic ∧ (fields (encode i)).op = (fields r.pattern).op
  | .I => ∃ r ∈ opcodeTable, r.mnemonic = i.mnemonic ∧ (fields (encode i)).op = (fields r.pattern).op
  | .R => ∃ r ∈ opcodeTable, r.mnemonic = i.mnemonic ∧ (fields (encode i)).op = (fields r.pattern).op ∧
      (fields (encode i)).n = (fields r.pattern).n

theorem halt : Statement .halt := ⟨⟨.HALT, .W, 0x0000, 0xFFFF⟩, by decide, rfl, rfl⟩
theorem clear : Statement .clear := ⟨⟨.CLEAR, .W, 0x00E0, 0xFFFF⟩, by decide, rfl, rfl⟩
theorem ret : Statement .ret := ⟨⟨.RETURN, .W, 0x00EE, 0xFFFF⟩, by decide, rfl, rfl⟩
theorem jump (addr : Addr) : Statement (.jump addr) :=
  ⟨⟨.JUMP, .A, 0x1000, 0xF000⟩, by decide, rfl, op_append 1 addr⟩
theorem call (addr : Addr) : Statement (.call addr) :=
  ⟨⟨.CALL, .A, 0x2000, 0xF000⟩, by decide, rfl, op_append 2 addr⟩
theorem skipEqImm (x : RegIdx) (kk : Byte) : Statement (.skipEqImm x kk) :=
  ⟨⟨.SKIP_EQ_IMM, .I, 0x3000, 0xF000⟩, by decide, rfl, op_append₃ 3 x kk⟩
theorem skipNeqImm (x : RegIdx) (kk : Byte) : Statement (.skipNeqImm x kk) :=
  ⟨⟨.SKIP_NEQ_IMM, .I, 0x4000, 0xF000⟩, by decide, rfl, op_append₃ 4 x kk⟩
theorem skipEqReg (x y : RegIdx) : Statement (.skipEqReg x y) :=
  ⟨⟨.SKIP_EQ_REG, .R, 0x5000, 0xF00F⟩, by decide, rfl, op_append₄ 5 x y 0, n_append₄ 5 x y 0⟩
theorem loadImm (x : RegIdx) (kk : Byte) : Statement (.loadImm x kk) :=
  ⟨⟨.LOAD_IMM, .I, 0x6000, 0xF000⟩, by decide, rfl, op_append₃ 6 x kk⟩
theorem addImm (x : RegIdx) (kk : Byte) : Statement (.addImm x kk) :=
  ⟨⟨.ADD_IMM, .I, 0x7000, 0xF000⟩, by decide, rfl, op_append₃ 7 x kk⟩
theorem loadReg (x y : RegIdx) : Statement (.loadReg x y) :=
  ⟨⟨.LOAD_REG, .R, 0x8000, 0xF00F⟩, by decide, rfl, op_append₄ 8 x y 0, n_append₄ 8 x y 0⟩
theorem orReg (x y : RegIdx) : Statement (.orReg x y) :=
  ⟨⟨.OR, .R, 0x8001, 0xF00F⟩, by decide, rfl, op_append₄ 8 x y 1, n_append₄ 8 x y 1⟩
theorem andReg (x y : RegIdx) : Statement (.andReg x y) :=
  ⟨⟨.AND, .R, 0x8002, 0xF00F⟩, by decide, rfl, op_append₄ 8 x y 2, n_append₄ 8 x y 2⟩
theorem xorReg (x y : RegIdx) : Statement (.xorReg x y) :=
  ⟨⟨.XOR, .R, 0x8003, 0xF00F⟩, by decide, rfl, op_append₄ 8 x y 3, n_append₄ 8 x y 3⟩
theorem addReg (x y : RegIdx) : Statement (.addReg x y) :=
  ⟨⟨.ADD_REG, .R, 0x8004, 0xF00F⟩, by decide, rfl, op_append₄ 8 x y 4, n_append₄ 8 x y 4⟩

end Sys2Proof.Laws.EncodesInRow
end

