-- ==== Sys2Proof/Laws/Step.lean ====
section
/-! SUPPORT. What an instruction, a step and a host operation can do, each said once: later proofs cite these and do not
unfold exec, step or hostOp. -/

namespace Sys2Proof.Machine

/-- What the two stack instructions can do: raise their fault, or push or pop. -/
theorem execCall_cases {addr : Addr} {s t : State} (h : execCall addr s = .next t) :
    (s.sp = 16 ∧ t = raiseAtDispatch .stackOverflow s) ∨
    (∃ i : Fin 16, s.sp.toNat = i.val ∧ t = setPc (addrOperand addr) (setSp (s.sp + 1) (writeStack i s.pc s))) := by
  unfold execCall at h
  split at h
  · rename_i hs
    cases h; exact .inl ⟨hs, rfl⟩
  · split at h
    · rename_i i hi
      cases h; exact .inr ⟨i, stackSlot_eq_some.mp hi, rfl⟩
    · cases h

theorem execRet_cases {s t : State} (h : execRet s = .next t) :
    (s.sp = 0 ∧ t = raiseAtDispatch .stackUnderflow s) ∨
    (∃ i : Fin 16, s.sp.toNat = i.val + 1 ∧ t = setPc (readStack i s) (setSp (s.sp - 1) s)) := by
  unfold execRet at h
  split at h
  · rename_i hs
    cases h; exact .inl ⟨hs, rfl⟩
  · rename_i hs
    split at h
    · rename_i i hi
      have hi := stackSlot_eq_some.mp hi
      have hne : s.sp.toNat ≠ 0 := fun e => hs (BitVec.eq_of_toNat_eq e)
      have hlt := s.sp.isLt
      rw [BitVec.toNat_sub] at hi
      simp at hi
      cases h; exact .inr ⟨i, by omega, rfl⟩
    · cases h

/-- Everything an instruction can do when it answers a next state: end the run, move pc, write registers, push, pop, or
raise one of the two stack faults. -/
theorem exec_cases {i : Instr} {s t : State} (h : exec i s = .next t) :
    (i = .halt ∧ t = haltRun s) ∨
    (∃ p, t = setPc p s) ∨
    (∃ x v, t = writeReg x v s) ∨
    (∃ x y v c, i = .addReg x y ∧ t = writeReg 0xF c (writeReg x v s)) ∨
    (∃ a, i = .call a ∧ ((s.sp = 16 ∧ t = raiseAtDispatch .stackOverflow s) ∨
      ∃ j : Fin 16, s.sp.toNat = j.val ∧ t = setPc (addrOperand a) (setSp (s.sp + 1) (writeStack j s.pc s)))) ∨
    (i = .ret ∧ ((s.sp = 0 ∧ t = raiseAtDispatch .stackUnderflow s) ∨
      ∃ j : Fin 16, s.sp.toNat = j.val + 1 ∧ t = setPc (readStack j s) (setSp (s.sp - 1) s))) := by
  cases i with
  | halt => cases h; exact .inl ⟨rfl, rfl⟩
  | clear => cases h; exact .inr (.inl ⟨s.pc, rfl⟩)
  | ret => exact .inr (.inr (.inr (.inr (.inr ⟨rfl, execRet_cases h⟩))))
  | jump a => cases h; exact .inr (.inl ⟨_, rfl⟩)
  | call a => exact .inr (.inr (.inr (.inr (.inl ⟨a, rfl, execCall_cases h⟩))))
  | skipEqImm x kk => cases h; exact .inr (.inl ⟨_, skipIf_eq _ _⟩)
  | skipNeqImm x kk => cases h; exact .inr (.inl ⟨_, skipIf_eq _ _⟩)
  | skipEqReg x y => cases h; exact .inr (.inl ⟨_, skipIf_eq _ _⟩)
  | loadImm x kk => cases h; exact .inr (.inr (.inl ⟨_, _, rfl⟩))
  | addImm x kk => cases h; exact .inr (.inr (.inl ⟨_, _, rfl⟩))
  | loadReg x y => cases h; exact .inr (.inr (.inl ⟨_, _, rfl⟩))
  | orReg x y => cases h; exact .inr (.inr (.inl ⟨_, _, rfl⟩))
  | andReg x y => cases h; exact .inr (.inr (.inl ⟨_, _, rfl⟩))
  | xorReg x y => cases h; exact .inr (.inr (.inl ⟨_, _, rfl⟩))
  | addReg x y => cases h; exact .inr (.inr (.inr (.inl ⟨_, _, _, _, rfl, rfl⟩)))

/-- No handler touches the latches of the fetch. -/
theorem exec_latches {i : Instr} {s t : State} (h : exec i s = .next t) : t.ir = s.ir ∧ t.fetchPc = s.fetchPc := by
  rcases exec_cases h with ⟨-, rfl⟩ | ⟨p, rfl⟩ | ⟨x, v, rfl⟩ | ⟨x, y, v, c, -, rfl⟩ | ⟨a, -, ⟨-, rfl⟩ | ⟨j, -, rfl⟩⟩ |
    ⟨-, ⟨-, rfl⟩ | ⟨j, -, rfl⟩⟩ <;> exact ⟨rfl, rfl⟩

/-- Dispatch runs the handler of the latched word, or raises UnimplementedInstructionFault. -/
theorem dispatch_eq (s : State) :
    dispatch s = match decodeWord s.ir with
      | .ok i => exec i s
      | .error _ => .next (raiseAtDispatch .unimplementedInstruction s) := by
  unfold dispatch
  rw [← List.append_nil (wordBytes s.ir), decode_wordBytes]
  cases decodeWord s.ir <;> rfl

/-- Everything a step can do when it answers a next state. -/
theorem step_cases {s t : State} (h : step s = .next t) :
    s.runState = .running ∧
    ((4094 < s.pc.toNat ∧ t = raise .fetchRange 0x0000 s.pc s) ∨
     (s.pc.toNat ≤ 4094 ∧ ∃ e, decodeWord (fetchWord s) = .error e ∧
        t = raise .unimplementedInstruction (fetchWord s) s.pc (fetchAndAdvance s)) ∨
     (s.pc.toNat ≤ 4094 ∧ ∃ i, decodeWord (fetchWord s) = .ok i ∧ exec i (fetchAndAdvance s) = .next t)) := by
  unfold step at h
  split at h
  · cases h
  · rename_i hr
    refine ⟨hr, ?_⟩
    unfold stepRunning at h
    split at h
    · rename_i hf
      have hf := fetchable_iff.mp hf
      rw [dispatch_eq] at h
      have hir : (fetchAndAdvance s).ir = fetchWord s := rfl
      rw [hir] at h
      split at h
      · rename_i i hi
        exact .inr (.inr ⟨hf, i, hi, h⟩)
      · rename_i e he
        cases h; exact .inr (.inl ⟨hf, e, he, rfl⟩)
    · rename_i hf
      have : ¬ s.pc.toNat ≤ 4094 := fun h => hf (fetchable_iff.mpr h)
      cases h; exact .inl ⟨by omega, rfl⟩
  · cases h
  · cases h

/-- The step of a legal fetch, by what the fetched word decodes to. -/
theorem step_of_fetchable {s : State} (hr : s.runState = .running) (hp : s.pc.toNat ≤ 4094) :
    step s = match decodeWord (fetchWord s) with
      | .ok i => exec i (fetchAndAdvance s)
      | .error _ => .next (raise .unimplementedInstruction (fetchWord s) s.pc (fetchAndAdvance s)) := by
  simp only [step, hr, stepRunning, fetchable_iff.mpr hp, if_true, dispatch_eq]
  rfl

/-- Everything a host operation can do to the state when it answers. -/
theorem hostOp_cases {op : HostOp} {s t : State} {r : HostReply} (h : hostOp op s = .next (t, r)) :
    (∃ image entry, op = .construct image entry ∧ t = construct image entry) ∨
    (s.runState = .idle ∧ ∃ a b, op = .writeMem a b ∧ t = writeMem a b s) ∨
    (s.runState = .idle ∧ ∃ i b, op = .writeReg i b ∧ t = writeReg i b s) ∨
    (op = .run ∧ s.runState = .idle ∧ t = setRunState .running s) ∨
    t = s := by
  cases op with
  | construct image entry => cases h; exact .inl ⟨_, _, rfl, rfl⟩
  | writeMem a b =>
    simp only [hostOp, inIdle] at h
    split at h
    · rename_i hi
      cases h; exact .inr (.inl ⟨hi, _, _, rfl, rfl⟩)
    · cases h
  | writeReg i b =>
    simp only [hostOp, inIdle] at h
    split at h
    · rename_i hi
      cases h; exact .inr (.inr (.inl ⟨hi, _, _, rfl, rfl⟩))
    · cases h
  | run =>
    simp only [hostOp, startRun] at h
    split at h
    · rename_i hi
      cases h; exact .inr (.inr (.inr (.inl ⟨rfl, hi, rfl⟩)))
    · cases h; exact .inr (.inr (.inr (.inr rfl)))
  | readReg i =>
    simp only [hostOp, probeReg] at h
    split at h
    · cases h
    · cases h; exact .inr (.inr (.inr (.inr rfl)))
  | readStatus => cases h; exact .inr (.inr (.inr (.inr rfl)))

end Sys2Proof.Machine
end

