-- ==== Sys2Proof/Machine/Assembler.lean ====
section
/-! DEFINITION. The assembler notation of 30_encoding.md R72 and R73: source instructions to words, and items with `.org`,
`.word` and labels to the bytes of a memory image. It has no hardware meaning; no machine definition uses it. -/

namespace Sys2Proof.Machine

/-- Why a source text assembles to nothing (log entry 12). -/
inductive AsmError where
  /-- the operands do not fit the mnemonic's format or their fields -/
  | illFormed
  /-- `.word` of a numeral above 0xFFFF -/
  | wordTooWide
  /-- a word would lie beyond address 4095 -/
  | outsideMemory
  /-- a label that nothing defines -/
  | unknownLabel
  /-- a label that two items define -/
  | duplicateLabel
  deriving DecidableEq, Repr

/-- The instruction a well-formed source term names (30_encoding.md R72); `none` for an ill-formed one. -/
def sourceToInstr (t : SourceInstr) : Option Instr :=
  if t.wellFormed then
    match t.mnemonic, t.operands with
    | .HALT, [] => some .halt
    | .CLEAR, [] => some .clear
    | .RETURN, [] => some .ret
    | .JUMP, [.num a] => some (.jump (BitVec.ofNat 12 a))
    | .CALL, [.num a] => some (.call (BitVec.ofNat 12 a))
    | .SKIP_EQ_IMM, [.reg x, .num k] => some (.skipEqImm (BitVec.ofNat 4 x) (BitVec.ofNat 8 k))
    | .SKIP_NEQ_IMM, [.reg x, .num k] => some (.skipNeqImm (BitVec.ofNat 4 x) (BitVec.ofNat 8 k))
    | .SKIP_EQ_REG, [.reg x, .reg y] => some (.skipEqReg (BitVec.ofNat 4 x) (BitVec.ofNat 4 y))
    | .LOAD_IMM, [.reg x, .num k] => some (.loadImm (BitVec.ofNat 4 x) (BitVec.ofNat 8 k))
    | .ADD_IMM, [.reg x, .num k] => some (.addImm (BitVec.ofNat 4 x) (BitVec.ofNat 8 k))
    | .LOAD_REG, [.reg x, .reg y] => some (.loadReg (BitVec.ofNat 4 x) (BitVec.ofNat 4 y))
    | .OR, [.reg x, .reg y] => some (.orReg (BitVec.ofNat 4 x) (BitVec.ofNat 4 y))
    | .AND, [.reg x, .reg y] => some (.andReg (BitVec.ofNat 4 x) (BitVec.ofNat 4 y))
    | .XOR, [.reg x, .reg y] => some (.xorReg (BitVec.ofNat 4 x) (BitVec.ofNat 4 y))
    | .ADD_REG, [.reg x, .reg y] => some (.addReg (BitVec.ofNat 4 x) (BitVec.ofNat 4 y))
    | _, _ => none
  else none

/-- One item of a source text (30_encoding.md R72, R73). A label's name is a number here (log entry 12). -/
inductive AsmItem where
  /-- an instruction -/
  | instr (t : SourceInstr)
  /-- JUMP or CALL to a label -/
  | toLabel (m : Mnemonic) (label : Nat)
  /-- `.org a`: the address at which the following words are placed -/
  | org (a : Nat)
  /-- `.word w`: a 16-bit value, placed big-endian -/
  | word (w : Nat)
  /-- a label: a name for the current address -/
  | label (name : Nat)
  deriving DecidableEq, Repr

/-- The address after an item placed at `a`. -/
def AsmItem.next (a : Nat) : AsmItem → Nat
  | .instr _ => a + 2
  | .toLabel _ _ => a + 2
  | .org b => b
  | .word _ => a + 2
  | .label _ => a

/-- The labels of a text that starts at `a`, with their addresses. -/
def labelTable : Nat → List AsmItem → List (Nat × Nat)
  | _, [] => []
  | a, .label l :: rest => (l, a) :: labelTable a rest
  | a, item :: rest => labelTable (item.next a) rest

/-- The word of an item, where it places one. -/
def itemWord (labels : List (Nat × Nat)) : AsmItem → Except AsmError (Option Word)
  | .instr t =>
    match sourceToInstr t with
    | some i => .ok (some (encode i))
    | none => .error .illFormed
  | .toLabel m l =>
    match labels.lookup l with
    | none => .error .unknownLabel
    | some a =>
      match sourceToInstr { mnemonic := m, operands := [.num a] } with
      | some i => .ok (some (encode i))
      | none => .error .illFormed
  | .word w => if w ≤ 0xFFFF then .ok (some (BitVec.ofNat 16 w)) else .error .wordTooWide
  | .org _ => .ok none
  | .label _ => .ok none

/-- The bytes of a text that starts at `a`, big-endian words (30_encoding.md R73, 20_memory.md R42). -/
def itemBytes (labels : List (Nat × Nat)) : Nat → List AsmItem → Except AsmError (List (Addr × Byte))
  | _, [] => .ok []
  | a, item :: rest =>
    match itemWord labels item, itemBytes labels (item.next a) rest with
    | .ok none, .ok bytes => .ok bytes
    | .ok (some w), .ok bytes =>
      if a + 1 ≤ 4095 then
        .ok ((BitVec.ofNat 12 a, highByte w) :: (BitVec.ofNat 12 (a + 1), lowByte w) :: bytes)
      else .error .outsideMemory
    | .error e, _ => .error e
    | _, .error e => .error e

/-- Assemble a text, whose first word is placed at address 0 unless `.org` says otherwise, into a memory image for
Construct (30_encoding.md R72, R73). -/
def assemble (text : List AsmItem) : Except AsmError (List (Addr × Byte)) :=
  let labels := labelTable 0 text
  if (labels.map (·.1)).Nodup then itemBytes labels 0 text else .error .duplicateLabel

end Sys2Proof.Machine
end

