-- ==== Sys2Proof/Tests/Slice0.lean ====
section
/-! SUPPORT. The model's own tests: the checks refuse ill-formed terms, decoding against words written out from the spec,
one or two steps per instruction against the vectors of 95_test_vectors.md, and a witness for the hypotheses of each
statement. Expected results are the spec's, not the model's. -/

namespace Sys2Proof.Tests

open Sys2Proof Sys2Proof.Machine

/-! ## Helpers -/

/-- RUNNING at `f` with the word `w` stored there: "word @ f" of 95_test_vectors.md. -/
def at_ (w f : Word) : State := State.withFetchWord { State.reset with pc := f } 16 w.toNat

/-- The state after one step, where there is one. -/
def after (s : State) : Option State :=
  match step s with
  | .next t => some t
  | _ => none

/-- Two register values set. -/
def regs2 (r : RegIdx) (v : Byte) (q : RegIdx) (u : Byte) (s : State) : State := writeReg q u (writeReg r v s)

/-- A live stack of `n` entries, all `v`. -/
def stacked (n : StackPtr) (v : Word) (s : State) : State := { s with sp := n, stack := Vector.replicate 16 v }

/-! ## The checks refuse ill-formed terms (30_encoding.md R72) -/

theorem smoke_register_too_large : SourceInstr.wellFormed ⟨.LOAD_IMM, [.reg 16, .num 0]⟩ = false := by decide
theorem smoke_second_register_too_large : SourceInstr.wellFormed ⟨.OR, [.reg 0, .reg 16]⟩ = false := by decide
theorem smoke_first_register_too_large : SourceInstr.wellFormed ⟨.OR, [.reg 16, .reg 0]⟩ = false := by decide
theorem smoke_immediate_too_large : SourceInstr.wellFormed ⟨.ADD_IMM, [.reg 0, .num 256]⟩ = false := by decide
theorem smoke_address_too_large : SourceInstr.wellFormed ⟨.JUMP, [.num 4096]⟩ = false := by decide
theorem smoke_operands_of_other_format : SourceInstr.wellFormed ⟨.ADD_REG, [.reg 0, .num 1]⟩ = false := by decide
theorem smoke_operand_where_none_belongs : SourceInstr.wellFormed ⟨.HALT, [.num 0]⟩ = false := by decide
theorem smoke_largest_operands_accepted :
    SourceInstr.wellFormed ⟨.SKIP_EQ_IMM, [.reg 15, .num 255]⟩ = true ∧ SourceInstr.wellFormed ⟨.CALL, [.num 4095]⟩ = true := by
  decide
theorem smoke_row_with_match_outside_mask : OpcodeRow.wellFormed ⟨.JUMP, .A, 0x1001, 0xF000⟩ = false := by decide
theorem smoke_row_with_mask_of_other_format : OpcodeRow.wellFormed ⟨.JUMP, .A, 0x1000, 0xF00F⟩ = false := by decide
theorem smoke_table_rows_well_formed : opcodeTable.all OpcodeRow.wellFormed = true := by decide
theorem smoke_illegal_words_refused :
    [0x0001, 0x0FFF, 0x5001, 0x512F, 0x8005, 0x8FFF, 0x9000, 0xFFFF].all (fun w : Word => !legalWord w) = true := by decide

/-! ## Decoding, one word per constructor, bit by bit from the bits column of 30_encoding.md R66 -/

theorem decode_halt : decodeWord 0b0000000000000000 = .ok .halt := by decide
theorem decode_clear : decodeWord 0b0000000011100000 = .ok .clear := by decide
theorem decode_ret : decodeWord 0b0000000011101110 = .ok .ret := by decide
theorem decode_jump : decodeWord 0b0001001000000100 = .ok (.jump 0x204) := by decide
theorem decode_call : decodeWord 0b0010000100000000 = .ok (.call 0x100) := by decide
theorem decode_skipEqImm : decodeWord 0b0011101001111111 = .ok (.skipEqImm 0xA 0x7F) := by decide
theorem decode_skipNeqImm : decodeWord 0b0100001000000001 = .ok (.skipNeqImm 2 0x01) := by decide
theorem decode_skipEqReg : decodeWord 0b0101000100100000 = .ok (.skipEqReg 1 2) := by decide
theorem decode_loadImm : decodeWord 0b0110001100101010 = .ok (.loadImm 3 0x2A) := by decide
theorem decode_addImm : decodeWord 0b0111000000001010 = .ok (.addImm 0 0x0A) := by decide
theorem decode_loadReg : decodeWord 0b1000101011110000 = .ok (.loadReg 0xA 0xF) := by decide
theorem decode_orReg : decodeWord 0b1000000000010001 = .ok (.orReg 0 1) := by decide
theorem decode_andReg : decodeWord 0b1000000000010010 = .ok (.andReg 0 1) := by decide
theorem decode_xorReg : decodeWord 0b1000000000010011 = .ok (.xorReg 0 1) := by decide
theorem decode_addReg : decodeWord 0b1000001100110100 = .ok (.addReg 3 3) := by decide
theorem decode_rejects_by_name :
    decodeWord 0x00E1 = .error .family0 ∧ decodeWord 0x5121 = .error .family5 ∧ decodeWord 0x8015 = .error .family8 ∧
    decodeWord 0xA123 = .error .unassignedFamily ∧ decode [0x60] = .error .truncated := by decide
theorem decode_table_word : decodeTableWord 16 0x2ABC = some (.call 0xABC) ∧ decodeTableWord 16 0x8015 = none := by decide
theorem fields_of_3A7F : fields 0x3A7F = ⟨0x3, 0xA, 0x7, 0xF, 0x7F, 0xA7F⟩ := by decide

/-! ## One step, against 95_test_vectors.md section 2 -/

theorem test_halt : (after (stacked 1 0x0002 (at_ 0x0000 0x0004))).map (fun t => (t.runState, t.pc, t.sp)) =
    some (.halted, 0x0006, 1) := by decide
theorem test_clear : (after (writeReg 3 0x7F (at_ 0x00E0 0x0200))).map (fun t => (t.runState, t.pc, readReg 3 t)) =
    some (.running, 0x0202, 0x7F) := by decide
theorem test_ret_full_stack : (after (stacked 16 0x0ABC (at_ 0x00EE 0x0200))).map (fun t => (t.runState, t.pc, t.sp)) =
    some (.running, 0x0ABC, 15) := by decide
theorem test_ret_underflow : (after (at_ 0x00EE 0x0200)).map (fun t => (t.runState, t.fault, t.pc, t.sp)) =
    some (.faulted, ⟨.stackUnderflow, 0x00EE, 0x0200⟩, 0x0202, 0) := by decide
theorem test_jump_odd : (after (at_ 0x1201 0x0200)).map (fun t => (t.runState, t.pc)) = some (.running, 0x0201) := by decide
theorem test_jump_4095_then_fetch_fault :
    ((after (at_ 0x1FFF 0x0200)).bind after).map (fun t => (t.runState, t.fault, t.pc)) =
      some (.faulted, ⟨.fetchRange, 0x0000, 0x0FFF⟩, 0x0FFF) := by decide
theorem test_call_at_top : (after (at_ 0x2FFF 0x0FFE)).map (fun t => (t.pc, t.sp, readStack 0 t)) =
    some (0x0FFF, 1, 0x1000) := by decide
theorem test_call_overflow : (after (stacked 16 0x0002 (at_ 0x2ABC 0x0200))).map (fun t => (t.runState, t.fault, t.pc, t.sp)) =
    some (.faulted, ⟨.stackOverflow, 0x2ABC, 0x0200⟩, 0x0202, 16) := by decide
theorem test_skipEqImm_taken_at_top : (after (writeReg 0 0xFF (at_ 0x30FF 0x0FFE))).map (·.pc) = some 0x1002 := by decide
theorem test_skipEqImm_not_taken : (after (writeReg 0 0x04 (at_ 0x3005 0x0208))).map (·.pc) = some 0x020A := by decide
theorem test_skipNeqImm_taken : (after (at_ 0x4201 0x0300)).map (·.pc) = some 0x0304 := by decide
theorem test_skipNeqImm_not_taken : (after (writeReg 2 0x01 (at_ 0x4201 0x0300))).map (·.pc) = some 0x0302 := by decide
theorem test_skipEqReg_taken : (after (regs2 1 0x2A 2 0x2A (at_ 0x5120 0x0400))).map (·.pc) = some 0x0404 := by decide
theorem test_skipEqReg_not_taken : (after (regs2 1 0x2A 2 0x2B (at_ 0x5120 0x0400))).map (·.pc) = some 0x0402 := by decide
theorem test_loadImm_flag : (after (at_ 0x6F01 0x0200)).map (fun t => (readReg 15 t, t.pc)) = some (0x01, 0x0202) := by decide
theorem test_addImm_wraps_flag_untouched :
    (after (regs2 0 0xFF 15 0x01 (at_ 0x7001 0x0200))).map (fun t => (readReg 0 t, readReg 15 t)) = some (0x00, 0x01) := by
  decide
theorem test_addImm_on_flag : (after (writeReg 15 0xFF (at_ 0x7F02 0x0200))).map (readReg 15) = some 0x01 := by decide
theorem test_loadReg : (after (writeReg 15 0x01 (at_ 0x8AF0 0x0200))).map (fun t => (readReg 10 t, readReg 15 t)) =
    some (0x01, 0x01) := by decide
theorem test_orReg_flag_untouched :
    (after (writeReg 15 0x01 (regs2 0 0xF0 1 0x0F (at_ 0x8011 0x0200)))).map (fun t => (readReg 0 t, readReg 15 t)) =
      some (0xFF, 0x01) := by decide
theorem test_andReg : (after (regs2 0 0xF0 1 0x3C (at_ 0x8012 0x0200))).map (fun t => (readReg 0 t, readReg 1 t)) =
    some (0x30, 0x3C) := by decide
theorem test_xorReg : (after (regs2 0 0xF0 1 0x3C (at_ 0x8013 0x0200))).map (fun t => (readReg 0 t, readReg 1 t)) =
    some (0xCC, 0x3C) := by decide
theorem test_addReg_carry : (after (regs2 0 0xFA 1 0x0A (at_ 0x8014 0x0200))).map (fun t => (readReg 0 t, readReg 15 t)) =
    some (0x04, 0x01) := by decide
theorem test_addReg_flag_as_destination :
    (after (regs2 15 0xF0 1 0x20 (at_ 0x8F14 0x0200))).map (readReg 15) = some 0x01 := by decide
theorem test_unimplemented : (after (regs2 0 0x01 1 0x01 (at_ 0x8015 0x0200))).map (fun t =>
      (t.runState, t.fault, t.pc, readReg 0 t, readReg 1 t)) =
    some (.faulted, ⟨.unimplementedInstruction, 0x8015, 0x0200⟩, 0x0202, 0x01, 0x01) := by decide
theorem test_odd_fetch_straddles :
    (after { State.reset with runState := .running, pc := 0x0201, mem := [(0x200, 0x12), (0x201, 0x60), (0x202, 0x07)] }).map
      (fun t => (readReg 0 t, t.pc)) = some (0x07, 0x0203) := by decide
theorem test_no_step_in_idle : (match step State.reset with | .fault .noStepInIdle => true | _ => false) = true := by decide
theorem test_host_write_then_run_halts :
    (match hostOp (.writeMem 0x200 0x60) (construct [] 0x200) with
      | .next (s, _) => (match hostOp .run s with | .next (t, _) => (after t).map (fun u => (u.pc, u.runState)) | _ => none)
      | _ => none) = some (0x0202, .running) := by decide

/-- The bytes of the source's scenario (95_test_vectors.md 1.7), from its assembler text. -/
theorem test_assemble_scenario :
    assemble [.toLabel .CALL 0, .toLabel .CALL 0, .instr ⟨.HALT, []⟩, .org 0x100, .label 0,
        .instr ⟨.ADD_REG, [.reg 0, .reg 1]⟩, .instr ⟨.ADD_REG, [.reg 0, .reg 1]⟩, .instr ⟨.RETURN, []⟩] =
      .ok [(0x000, 0x21), (0x001, 0x00), (0x002, 0x21), (0x003, 0x00), (0x004, 0x00), (0x005, 0x00),
        (0x100, 0x80), (0x101, 0x14), (0x102, 0x80), (0x103, 0x14), (0x104, 0x00), (0x105, 0xEE)] := by decide

/-! ## Witnesses: the hypotheses of each statement can be met together -/

/-- The fetch of a placed word, for the witnesses below. -/
theorem fetches_at (w : Word) (s : State) (hr : s.runState = .running) (hp : s.pc.toNat ≤ 4094) (hw : fetchWord s = w) :
    Fetches w s := fetches_iff.mpr ⟨hr, hp, hw⟩

theorem inv_reset : Inv State.reset :=
  ⟨reset_mem_wf, by decide, by simp [StackHoldsReturnAddresses, State.liveStack, State.reset], by decide, by decide⟩

/-- RUNNING with a full stack of return addresses at the last legal fetch address, and a RETURN there. -/
def fullAtTop : State := stacked 16 0x1000 (at_ 0x00EE 0x0FFE)

theorem inv_fullAtTop : Inv fullAtTop := by
  have h : fullAtTop.liveStack = List.replicate 16 0x1000 := by decide
  exact ⟨by decide, by decide, by simp [StackHoldsReturnAddresses, h], by decide, by decide⟩

theorem witness_EncodeInvertsDecode : decodeWord 0xFFFF ≠ .ok .halt ∧ decodeWord 0x8FF4 = .ok (.addReg 15 15) := by decide
theorem witness_DecoderFollowsOpcodeTable :
    (∃ r ∈ opcodeTable, (0x8FF4 : Word) &&& r.mask = r.pattern) ∧ (∀ r ∈ opcodeTable, (0x8FF5 : Word) &&& r.mask ≠ r.pattern) := by
  decide
theorem witness_OpcodePatternsAreDisjoint :
    ∃ r ∈ opcodeTable, ∃ q ∈ opcodeTable, (0x00EE : Word) &&& r.mask = r.pattern ∧ (0x00EE : Word) &&& q.mask = q.pattern := by
  decide
theorem witness_IllegalWords_boundaries :
    decodeWord 0x0FFF = .error .family0 ∧ decodeWord 0x1000 = .ok (.jump 0) ∧ decodeWord 0x5FF1 = .error .family5 ∧
    decodeWord 0x5FF0 = .ok (.skipEqReg 15 15) ∧ decodeWord 0x8FF5 = .error .family8 ∧ decodeWord 0x8FF4 = .ok (.addReg 15 15) ∧
    decodeWord 0x8FFF = .error .family8 ∧ decodeWord 0x9000 = .error .unassignedFamily := by decide
theorem witness_HostOperationsKeepInvariant :
    Inv State.reset ∧ hostOp (.writeMem 0xFFF 0xFF) State.reset = .next (writeMem 0xFFF 0xFF State.reset, .done) :=
  ⟨inv_reset, rfl⟩
theorem witness_HostLoadsOnlyInIdle :
    State.reset.mem.wf ∧ State.reset.runState = .idle ∧ fullAtTop.mem.wf ∧ fullAtTop.runState ≠ .idle := by decide
theorem witness_HostChangesOnlyWhatItMay :
    hostOp .run State.reset = .next (setRunState .running State.reset, .done) ∧
      hostOp (.readReg 3) State.reset = .next (State.reset, .reg 0) ∧
      ∀ image entry, HostOp.run ≠ .construct image entry :=
  ⟨rfl, by simp [hostOp, probeReg, State.reset, readReg], by simp⟩
theorem witness_RunStartsOnlyFromIdle : State.reset.runState = .idle ∧ fullAtTop.runState ≠ .idle := by decide
theorem witness_ProbesReadTheState : State.reset.runState ≠ .running ∧ fullAtTop.runState = .running := by decide
theorem witness_OnlyConstructBeforeFirstConstruct : ∀ image entry, HostOp.readStatus ≠ .construct image entry := by simp
theorem witness_StepRunsDecodedInstruction :
    fullAtTop.runState = .running ∧ fullAtTop.pc.toNat ≤ 4094 ∧
      decode [readMem (BitVec.ofNat 12 fullAtTop.pc.toNat) fullAtTop,
        readMem (BitVec.ofNat 12 (fullAtTop.pc.toNat + 1)) fullAtTop] = .ok (.ret, []) := by decide
theorem witness_FetchIsBigEndian : Fetches 0x00EE fullAtTop ∧ (after fullAtTop).isSome :=
  ⟨fetches_at 0x00EE _ (by decide) (by decide) (by decide), by decide⟩
theorem witness_PcAfterEveryInstruction :
    Fetches 0x00EE fullAtTop ∧ decodeWord 0x00EE = .ok .ret ∧ (after fullAtTop).isSome :=
  ⟨witness_FetchIsBigEndian.1, by decide, by decide⟩
/-- One word of every instruction at the last legal fetch address: fetched, decoded and stepped. -/
theorem witness_PcAfterEveryInstruction_clauses :
    ([(0x0000 : Word), 0x00E0, 0x00EE, 0x1FFF, 0x2FFF, 0x3F00, 0x3F01, 0x4F00, 0x4F01, 0x5FE0, 0x6FFF, 0x7FFF, 0x8FE0, 0x8FE1] ++
      [0x8FE2, 0x8FE3, 0x8FF4]).all (fun w : Word =>
        decide ((at_ w 0x0FFE).runState = RunState.running) && decide ((at_ w 0x0FFE).pc.toNat = 4094) &&
          decide (fetchWord (at_ w 0x0FFE) = w) && legalWord w && (after (at_ w 0x0FFE)).isSome) = true := by decide
theorem witness_StepOutcomeIsOneOfThree : fullAtTop.runState = .running ∧ SpInRange fullAtTop := by decide
theorem witness_NoStepOutsideRunning :
    State.reset.runState ≠ .running ∧ RunEnded (haltRun fullAtTop) ∧ RunEnded (raise .fetchRange 0 0 fullAtTop) ∧
      hostOp .run (haltRun fullAtTop) = .next (haltRun fullAtTop, .done) :=
  ⟨by decide, .inl rfl, .inr rfl, rfl⟩
theorem witness_StepKeepsInvariant : Inv fullAtTop ∧ (after fullAtTop).isSome := ⟨inv_fullAtTop, by decide⟩
theorem witness_StackPointerStaysInRange :
    SpInRange fullAtTop ∧ (after fullAtTop).isSome ∧ hostOp .run fullAtTop = .next (fullAtTop, .done) :=
  ⟨by decide, by decide, rfl⟩
theorem witness_PcNeverWraps :
    (Inv fullAtTop ∧ fullAtTop.pc.toNat = 4094 ∧ (after fullAtTop).isSome) ∧
      (Inv (setPc 0x0FFF fullAtTop) ∧ (setPc 0x0FFF fullAtTop).pc.toNat = 4095 ∧ (after (setPc 0x0FFF fullAtTop)).isSome) :=
  ⟨⟨inv_fullAtTop, by decide, by decide⟩,
    ⟨inv_fullAtTop.1, inv_fullAtTop.2, inv_fullAtTop.3, inv_fullAtTop.4⟩, by decide, by decide⟩
theorem witness_MemoryWrittenOnlyByHost :
    (after fullAtTop).isSome ∧ runLoop 0 fullAtTop = .next fullAtTop ∧
      hostOp (.writeMem 0 1) State.reset = .next (writeMem 0 1 State.reset, .done) ∧
      (writeMem 0 1 State.reset).mem ≠ State.reset.mem ∧
      exec .clear fullAtTop = .next fullAtTop := ⟨by decide, rfl, rfl, by decide, rfl⟩
theorem witness_FetchOutsideRangeRaises :
    (setPc 0x0FFF fullAtTop).runState = .running ∧ 4094 < (setPc 0x0FFF fullAtTop).pc.toNat := by decide
theorem witness_IllegalWordRaisesUnimplemented :
    Fetches 0x8005 (at_ 0x8005 0x0FFE) ∧ ∀ r ∈ opcodeTable, (0x8005 : Word) &&& r.mask ≠ r.pattern :=
  ⟨fetches_at 0x8005 _ (by decide) (by decide) (by decide), by decide⟩
theorem witness_FaultsArePrecise :
    (after (setPc 0x0FFF fullAtTop)).map (·.runState) = some .faulted ∧
      (after (stacked 16 0x0002 (at_ 0x2FFF 0x0FFE))).map (·.runState) = some .faulted ∧
      (after (at_ 0x00EE 0x0FFE)).map (·.runState) = some .faulted ∧
      (after (at_ 0xFFFF 0x0FFE)).map (·.runState) = some .faulted := by decide
theorem witness_FaultRecordWrittenOnce :
    (after (at_ 0xFFFF 0x0FFE)).map (fun t => decide (t.fault ≠ (at_ 0xFFFF 0x0FFE).fault)) = some true ∧
      (raise .fetchRange 0 0 fullAtTop).runState = .faulted ∧
      hostOp (.construct [] 0) (raise .fetchRange 0 0 fullAtTop) = .next (construct [] 0, .done) ∧
      (construct [] 0).fault ≠ (raise .fetchRange 0 0 fullAtTop).fault := ⟨by decide, rfl, rfl, by decide⟩
/-- The host's clause: two such states in IDLE, and a Run, a WriteReg and a ReadStatus that answer. -/
theorem witness_DeadStackAndLatches_host :
    Indistinguishable State.reset (writeStack 15 0x0ABC (setLatches 0x1234 0 State.reset)) ∧
      State.reset ≠ writeStack 15 0x0ABC (setLatches 0x1234 0 State.reset) ∧
      hostOp .run State.reset = .next (setRunState .running State.reset, .done) ∧
      hostOp (.writeReg 15 0xFF) State.reset = .next (writeReg 15 0xFF State.reset, .done) ∧
      hostOp .readStatus State.reset = .next (State.reset, .status .idle FaultRecord.clear) :=
  ⟨⟨by decide, by decide, by decide, by decide, by decide, by decide, by decide⟩, by decide, rfl, rfl, rfl⟩
/-- Two different states that agree on everything but a dead stack entry and a latch. -/
theorem witness_DeadStackAndLatchesAreUnobservable :
    Indistinguishable (at_ 0x2100 0x0000) (writeStack 0 0x0ABC (setLatches 0x1234 0 (at_ 0x2100 0x0000))) ∧
      at_ 0x2100 0x0000 ≠ writeStack 0 0x0ABC (setLatches 0x1234 0 (at_ 0x2100 0x0000)) ∧
      (after (at_ 0x2100 0x0000)).isSome :=
  ⟨⟨by decide, by decide, by decide, by decide, by decide, by decide, by decide⟩, by decide, by decide⟩
theorem witness_RunLoopRunsToEnd :
    (fullAtTop.runState = .running ∧ SpInRange fullAtTop ∧ (after fullAtTop).isSome) ∧ State.reset.runState ≠ .running ∧
      (match runLoop 1 (at_ 0x0000 0x0FFE) with | .next t => decide (t.runState = .halted) | _ => false) = true := by decide
theorem witness_JumpToItselfRunsForever :
    Fetches (0x1#4 ++ (0xFFE : Addr)) (at_ 0x1FFE 0x0FFE) ∧ (at_ 0x1FFE 0x0FFE).pc.toNat = (0xFFE : Addr).toNat :=
  ⟨fetches_at (0x1#4 ++ (0xFFE : Addr)) _ (by decide) (by decide) (by decide), by decide⟩
theorem witness_RegistersChangeOnlyAsDestinations :
    exec (.loadImm 15 0xFF) State.reset = .next (writeReg 15 0xFF State.reset) ∧
      readReg 15 (writeReg 15 0xFF State.reset) ≠ readReg 15 State.reset := ⟨rfl, by decide⟩
theorem witness_FlagIsRegisterFifteen :
    (∃ t, exec (.addReg 15 15) State.reset = .next t) ∧ (∃ t, exec (.addImm 14 1) State.reset = .next t) ∧
      (Instr.addImm 14 1).mnemonic ≠ .ADD_REG ∧ destination (.addImm 14 1) ≠ some 0xF :=
  ⟨⟨_, rfl⟩, ⟨_, rfl⟩, by decide, by decide⟩
theorem witness_OnlyCallAndReturnMoveTheStack : ∃ t, exec (.jump 0xFFF) fullAtTop = .next t := ⟨_, rfl⟩
/-- P3's hypotheses at k = 0 and at k = 15: the state after the CALL is such a `u`. -/
theorem witness_CallAndReturnLaws :
    ((stacked 0 0x0002 State.reset).sp.toNat = (0 : Fin 16).val ∧
      (stacked 1 0x0002 State.reset).sp.toNat = (0 : Fin 16).val + 1) ∧
    ((stacked 15 0x0002 State.reset).sp.toNat = (15 : Fin 16).val ∧
      (stacked 16 0x0002 State.reset).sp.toNat = (15 : Fin 16).val + 1) ∧
    ((at_ 0 0).sp = 0 ∧ (at_ 0 0).runState = .running ∧ (List.replicate 16 (0xFFF : Addr)).length = 16) ∧
    ((∃ t, exec .clear State.reset = .next t) ∧ Instr.clear.mnemonic ≠ .CALL ∧ Instr.clear.mnemonic ≠ .RETURN) :=
  ⟨by decide, by decide, by decide, ⟨_, rfl⟩, by decide, by decide⟩
/-- The state after a CALL meets P3's hypotheses on the state a RETURN starts from. -/
theorem witness_CallAndReturnLaws_after_call :
    (match exec (.call 0xFFF) (stacked 15 0x0002 State.reset) with
      | .next t => decide (t.sp.toNat = (15 : Fin 16).val + 1)
      | _ => false) = true := by decide
theorem witness_OutputSignalsShowTheState :
    fullAtTop.pc.toNat = 4094 ∧ (setPc 0x0FFF fullAtTop).pc.toNat = 4095 := by decide
theorem witness_ReturnPopsOrUnderflows :
    (fullAtTop.sp ≠ 0 ∧ SpInRange fullAtTop) ∧
      ((stacked 1 0x0002 State.reset).sp ≠ 0 ∧ SpInRange (stacked 1 0x0002 State.reset)) ∧ State.reset.sp = 0 := by decide
theorem witness_CallPushesOrOverflows :
    State.reset.sp.toNat < 16 ∧ (stacked 15 0x0002 State.reset).sp.toNat < 16 ∧ fullAtTop.sp = 16 := by decide
theorem witness_SkipEqRegSkipsOnEqual : (15 : BitVec 4) ≠ 0 ∧ (3 : RegIdx) = 3 := by decide
theorem witness_SkipsAreComplementary :
    (setPc 0x1000 State.reset).pc = (0x0FFE : Word) + 2 ∧
      readReg 0 (setPc 0x1000 State.reset) = 0x00 ∧ readReg 0 (setPc 0x1000 State.reset) ≠ 0xFF := by decide
theorem witness_XorIsBitwise : (5 : RegIdx) = 5 := rfl
theorem witness_AddRegWritesSumThenCarry : (14 : RegIdx) ≠ 0xF := by decide
theorem witness_CarryLawIsExact : (14 : RegIdx) ≠ 0xF ∧ ∃ t, exec (.addReg 14 15) State.reset = .next t :=
  ⟨by decide, _, rfl⟩
theorem witness_SameRegisterTwice : (14 : RegIdx) ≠ 0xF := by decide

end Sys2Proof.Tests
end

section
/-! SUPPORT. The fetch is big-endian (20_memory.md R42): what a step of a legal fetch latches, and which fields of the word
each of the two bytes supplies. -/

namespace Sys2Proof.Machine

/-- A byte made of two nibbles, as a number. -/
theorem toNat_nibbles (hi lo : BitVec 4) : (hi ++ lo : Byte).toNat = hi.toNat * 16 + lo.toNat := by
  rw [BitVec.toNat_append, ← Nat.shiftLeft_add_eq_or_of_lt lo.isLt, Nat.shiftLeft_eq]

/-- The byte at the lower address supplies `op` and `x`. -/
theorem toNat_highByte (w : Word) : (highByte w).toNat = (fields w).op.toNat * 16 + (fields w).x.toNat := by
  rw [← op_x_append, toNat_nibbles]

/-- The byte at the higher address is `kk` (30_encoding.md R61). -/
theorem lowByte_eq_kk (w : Word) : lowByte w = (fields w).kk := rfl

/-- `kk` is made of `y` and `n`. -/
theorem toNat_kk (w : Word) : (fields w).kk.toNat = (fields w).y.toNat * 16 + (fields w).n.toNat := by
  rw [← kk_of_y_n, toNat_nibbles]

/-- The two bytes at a legal pc are the two halves of the fetched word, the more significant one first. -/
theorem Fetches.bytes {w : Word} {s : State} (h : Fetches w s) :
    readMem (BitVec.ofNat 12 s.pc.toNat) s = highByte w ∧ readMem (BitVec.ofNat 12 (s.pc.toNat + 1)) s = lowByte w := by
  rw [← h.word, shift_or_eq_wordOfBytes, highByte_wordOfBytes, lowByte_wordOfBytes]
  exact ⟨rfl, rfl⟩

/-- A step of a legal fetch leaves the fetched word and its address in the latches, whatever the word: a handler and a
fault at dispatch both keep them (40_step_cycle.md R81). -/
theorem Fetches.latches_of_step {w : Word} {s t : State} (h : Fetches w s) (hstep : step s = .next t) :
    t.ir = w ∧ t.fetchPc = s.pc := by
  obtain ⟨-, hp, rfl⟩ := fetches_iff.mp h
  obtain ⟨-, ⟨hout, -⟩ | ⟨-, e, -, rfl⟩ | ⟨-, i, -, hexec⟩⟩ := step_cases hstep
  · omega
  · exact ⟨rfl, rfl⟩
  · exact exec_latches hexec

/-- Settles O17: the latches by the cases of a step, the bytes by the word's halves and their nibbles. -/
theorem fetchIsBigEndian : Obligations.FetchIsBigEndian := by
  intro w s t hf hstep
  obtain ⟨hir, hpc⟩ := hf.latches_of_step hstep
  obtain ⟨hhi, hlo⟩ := hf.bytes
  rw [hir, hhi, hlo, lowByte_eq_kk]
  exact ⟨rfl, hpc, toNat_highByte w, toNat_kk w, rfl⟩

end Sys2Proof.Machine
end

section
/-! SUPPORT. The six fields of a word as numbers (30_encoding.md R61), and the decoder as a reading of the opcode table: a
word decodes exactly when a row selects it, to the instruction of that row's name on the word's fields (R66). -/

namespace Sys2Proof

/-! ## The fields as numbers -/

theorem toNat_op (w : Word) : (fields w).op.toNat = w.toNat / 4096 := by
  have hw := w.isLt
  simp only [fields, BitVec.extractLsb'_toNat, Nat.shiftRight_eq_div_pow]
  omega

theorem toNat_x (w : Word) : (fields w).x.toNat = w.toNat / 256 % 16 := by
  simp only [fields, BitVec.extractLsb'_toNat, Nat.shiftRight_eq_div_pow]

theorem toNat_y (w : Word) : (fields w).y.toNat = w.toNat / 16 % 16 := by
  simp only [fields, BitVec.extractLsb'_toNat, Nat.shiftRight_eq_div_pow]

theorem toNat_n (w : Word) : (fields w).n.toNat = w.toNat % 16 := BitVec.extractLsb'_toNat 0 4 w

theorem toNat_kk_eq_mod (w : Word) : (fields w).kk.toNat = w.toNat % 256 := BitVec.extractLsb'_toNat 0 8 w

theorem toNat_addr_eq_mod (w : Word) : (fields w).addr.toNat = w.toNat % 4096 := BitVec.extractLsb'_toNat 0 12 w

/-- `addr` is made of `x`, `y` and `n`. -/
theorem toNat_addr (w : Word) :
    (fields w).addr.toNat = (fields w).x.toNat * 256 + (fields w).y.toNat * 16 + (fields w).n.toNat := by
  have hsplit : (fields w).addr.toNat = (fields w).x.toNat * 256 + (fields w).kk.toNat := by
    rw [← addr_of_x_kk, BitVec.toNat_append, ← Nat.shiftLeft_add_eq_or_of_lt (fields w).kk.isLt, Nat.shiftLeft_eq]
  rw [hsplit, Machine.toNat_kk, Nat.add_assoc]

/-- Settles O6: the field lemmas above, with both overlaps from the concatenations of the fields. -/
theorem fieldsAreTheBitSlices : Obligations.FieldsAreTheBitSlices := fun w =>
  ⟨toNat_op w, toNat_x w, toNat_y w, toNat_n w, toNat_kk_eq_mod w, toNat_addr_eq_mod w, Machine.toNat_kk w, toNat_addr w⟩

/-! ## The mask of a format keeps the bits the format fixes -/

theorem and_mask_op (w : Word) : w &&& 0xF000 = (fields w).op ++ (0 : Addr) :=
  calc w &&& 0xF000
    _ = ((fields w).op ++ (fields w).addr : Word) &&& (0xF#4 ++ 0#12) := by rw [word_of_op_addr]; rfl
    _ = (fields w).op ++ 0#12 := by
      rw [BitVec.and_append, BitVec.and_zero, show 0xF#4 = BitVec.allOnes 4 from rfl, BitVec.and_allOnes]

theorem and_mask_op_n (w : Word) : w &&& 0xF00F = (fields w).op ++ 0#4 ++ 0#4 ++ (fields w).n :=
  calc w &&& 0xF00F
    _ = ((fields w).op ++ (fields w).x ++ (fields w).y ++ (fields w).n : Word) &&& (0xF#4 ++ 0#4 ++ 0#4 ++ 0xF#4) := by
      rw [word_of_op_x_y_n]; rfl
    _ = (fields w).op ++ 0#4 ++ 0#4 ++ (fields w).n := by
      simp only [BitVec.and_append, BitVec.and_zero, show 0xF#4 = BitVec.allOnes 4 from rfl, BitVec.and_allOnes]

theorem and_mask_op_eq_iff {w v : Word} : w &&& 0xF000 = v &&& 0xF000 ↔ (fields w).op = (fields v).op := by
  rw [and_mask_op, and_mask_op]
  constructor
  · intro h
    rw [← op_append (fields w).op 0, h, op_append]
  · intro hop
    rw [hop]

theorem and_mask_op_n_eq_iff {w v : Word} :
    w &&& 0xF00F = v &&& 0xF00F ↔ (fields w).op = (fields v).op ∧ (fields w).n = (fields v).n := by
  rw [and_mask_op_n, and_mask_op_n]
  constructor
  · intro h
    exact ⟨by rw [← op_append₄ (fields w).op 0#4 0#4 (fields w).n, h, op_append₄],
      by rw [← n_append₄ (fields w).op 0#4 0#4 (fields w).n, h, n_append₄]⟩
  · rintro ⟨hop, hn⟩
    rw [hop, hn]

/-- Two words agree in what the format fixes: all 16 bits, `op`, or `op` and `n` (30_encoding.md R62). -/
def Format.FixedFieldsAgree (w v : Word) : Format → Prop
  | .W => w = v
  | .A => (fields w).op = (fields v).op
  | .I => (fields w).op = (fields v).op
  | .R => (fields w).op = (fields v).op ∧ (fields w).n = (fields v).n

theorem Format.and_fixedBits_eq_iff (f : Format) {w v : Word} :
    w &&& f.fixedBits = v &&& f.fixedBits ↔ f.FixedFieldsAgree w v := by
  cases f with
  | W =>
    have hall (u : Word) : u &&& Format.W.fixedBits = u := BitVec.and_allOnes
    rw [hall, hall]; rfl
  | A => exact and_mask_op_eq_iff
  | I => exact and_mask_op_eq_iff
  | R => exact and_mask_op_n_eq_iff

/-- A row selects a word exactly when the word has the row's fixed bits. -/
theorem selects_iff_fixedFieldsAgree {r : OpcodeRow} (hr : r ∈ opcodeTable) (w : Word) :
    w &&& r.mask = r.pattern ↔ r.format.FixedFieldsAgree w r.pattern := by
  have hwf : ∀ q ∈ opcodeTable, q.mask = q.format.fixedBits ∧ q.pattern &&& q.format.fixedBits = q.pattern := by decide
  obtain ⟨hmask, hpattern⟩ := hwf r hr
  rw [← Format.and_fixedBits_eq_iff, hmask, hpattern]

/-! ## The decoder follows the table -/

/-- The instruction of a row's name, with the operands its format takes from the fields (30_encoding.md R62). -/
def Mnemonic.onFields (f : Fields) : Mnemonic → Instr
  | .HALT => .halt
  | .CLEAR => .clear
  | .RETURN => .ret
  | .JUMP => .jump f.addr
  | .CALL => .call f.addr
  | .SKIP_EQ_IMM => .skipEqImm f.x f.kk
  | .SKIP_NEQ_IMM => .skipNeqImm f.x f.kk
  | .SKIP_EQ_REG => .skipEqReg f.x f.y
  | .LOAD_IMM => .loadImm f.x f.kk
  | .ADD_IMM => .addImm f.x f.kk
  | .LOAD_REG => .loadReg f.x f.y
  | .OR => .orReg f.x f.y
  | .AND => .andReg f.x f.y
  | .XOR => .xorReg f.x f.y
  | .ADD_REG => .addReg f.x f.y

@[simp] theorem mnemonic_onFields (m : Mnemonic) (f : Fields) : (m.onFields f).mnemonic = m := by cases m <;> rfl

theorem operandsAreFieldsOf_onFields (m : Mnemonic) (w : Word) :
    Machine.OperandsAreFieldsOf w (m.onFields (fields w)) := by
  cases m with
  | HALT | CLEAR | RETURN => trivial
  | JUMP | CALL => exact toNat_addr_eq_mod w
  | SKIP_EQ_IMM | SKIP_NEQ_IMM | LOAD_IMM | ADD_IMM => exact ⟨toNat_x w, toNat_kk_eq_mod w⟩
  | SKIP_EQ_REG | LOAD_REG | OR | AND | XOR | ADD_REG => exact ⟨toNat_x w, toNat_y w⟩

/-- A word that decodes has the fixed bits of a row, and is that row's instruction on its fields. -/
theorem exists_row_of_decodeWord {w : Word} {i : Instr} (h : decodeWord w = .ok i) :
    ∃ r ∈ opcodeTable, r.format.FixedFieldsAgree w r.pattern ∧ i = r.mnemonic.onFields (fields w) := by
  obtain ⟨-, h0⟩ | ⟨hop, rfl⟩ | ⟨hop, rfl⟩ | ⟨hop, rfl⟩ | ⟨hop, rfl⟩ | ⟨hop, h5⟩ | ⟨hop, rfl⟩ | ⟨hop, rfl⟩ | ⟨hop, h8⟩ :=
    decodeWord_cases h
  · obtain ⟨rfl, rfl⟩ | ⟨rfl, rfl⟩ | ⟨rfl, rfl⟩ := decodeFamily0_cases h0
    · exact ⟨⟨.HALT, .W, 0x0000, 0xFFFF⟩, by decide, rfl, rfl⟩
    · exact ⟨⟨.CLEAR, .W, 0x00E0, 0xFFFF⟩, by decide, rfl, rfl⟩
    · exact ⟨⟨.RETURN, .W, 0x00EE, 0xFFFF⟩, by decide, rfl, rfl⟩
  · exact ⟨⟨.JUMP, .A, 0x1000, 0xF000⟩, by decide, hop, rfl⟩
  · exact ⟨⟨.CALL, .A, 0x2000, 0xF000⟩, by decide, hop, rfl⟩
  · exact ⟨⟨.SKIP_EQ_IMM, .I, 0x3000, 0xF000⟩, by decide, hop, rfl⟩
  · exact ⟨⟨.SKIP_NEQ_IMM, .I, 0x4000, 0xF000⟩, by decide, hop, rfl⟩
  · obtain ⟨hn, rfl⟩ := decodeFamily5_cases h5
    exact ⟨⟨.SKIP_EQ_REG, .R, 0x5000, 0xF00F⟩, by decide, ⟨hop, hn⟩, rfl⟩
  · exact ⟨⟨.LOAD_IMM, .I, 0x6000, 0xF000⟩, by decide, hop, rfl⟩
  · exact ⟨⟨.ADD_IMM, .I, 0x7000, 0xF000⟩, by decide, hop, rfl⟩
  · obtain ⟨hn, rfl⟩ | ⟨hn, rfl⟩ | ⟨hn, rfl⟩ | ⟨hn, rfl⟩ | ⟨hn, rfl⟩ := decodeFamily8_cases h8
    · exact ⟨⟨.LOAD_REG, .R, 0x8000, 0xF00F⟩, by decide, ⟨hop, hn⟩, rfl⟩
    · exact ⟨⟨.OR, .R, 0x8001, 0xF00F⟩, by decide, ⟨hop, hn⟩, rfl⟩
    · exact ⟨⟨.AND, .R, 0x8002, 0xF00F⟩, by decide, ⟨hop, hn⟩, rfl⟩
    · exact ⟨⟨.XOR, .R, 0x8003, 0xF00F⟩, by decide, ⟨hop, hn⟩, rfl⟩
    · exact ⟨⟨.ADD_REG, .R, 0x8004, 0xF00F⟩, by decide, ⟨hop, hn⟩, rfl⟩

/-- A word with the fixed bits of a row decodes to that row's instruction on its fields. -/
theorem decodeWord_of_row {r : OpcodeRow} (hr : r ∈ opcodeTable) {w : Word}
    (h : r.format.FixedFieldsAgree w r.pattern) : decodeWord w = .ok (r.mnemonic.onFields (fields w)) := by
  simp only [opcodeTable, List.cons_append, List.nil_append, List.mem_cons, List.not_mem_nil, or_false] at hr
  rcases hr with rfl | rfl | rfl | rfl | rfl | rfl | rfl | rfl | rfl | rfl | rfl | rfl | rfl | rfl | rfl
  · obtain rfl : w = 0x0000 := h; rfl
  · obtain rfl : w = 0x00E0 := h; rfl
  · obtain rfl : w = 0x00EE := h; rfl
  · have hop : (fields w).op = 1 := h; simp [decodeWord, Mnemonic.onFields, hop]
  · have hop : (fields w).op = 2 := h; simp [decodeWord, Mnemonic.onFields, hop]
  · have hop : (fields w).op = 3 := h; simp [decodeWord, Mnemonic.onFields, hop]
  · have hop : (fields w).op = 4 := h; simp [decodeWord, Mnemonic.onFields, hop]
  · obtain ⟨hop, hn⟩ : (fields w).op = 5 ∧ (fields w).n = 0 := h
    simp [decodeWord, decodeFamily5, Mnemonic.onFields, hop, hn]
  · have hop : (fields w).op = 6 := h; simp [decodeWord, Mnemonic.onFields, hop]
  · have hop : (fields w).op = 7 := h; simp [decodeWord, Mnemonic.onFields, hop]
  · obtain ⟨hop, hn⟩ : (fields w).op = 8 ∧ (fields w).n = 0 := h
    simp [decodeWord, decodeFamily8, Mnemonic.onFields, hop, hn]
  · obtain ⟨hop, hn⟩ : (fields w).op = 8 ∧ (fields w).n = 1 := h
    simp [decodeWord, decodeFamily8, Mnemonic.onFields, hop, hn]
  · obtain ⟨hop, hn⟩ : (fields w).op = 8 ∧ (fields w).n = 2 := h
    simp [decodeWord, decodeFamily8, Mnemonic.onFields, hop, hn]
  · obtain ⟨hop, hn⟩ : (fields w).op = 8 ∧ (fields w).n = 3 := h
    simp [decodeWord, decodeFamily8, Mnemonic.onFields, hop, hn]
  · obtain ⟨hop, hn⟩ : (fields w).op = 8 ∧ (fields w).n = 4 := h
    simp [decodeWord, decodeFamily8, Mnemonic.onFields, hop, hn]

/-- No two rows have the same name. -/
theorem row_eq_of_mnemonic_eq :
    ∀ r ∈ opcodeTable, ∀ q ∈ opcodeTable, r.mnemonic = q.mnemonic → r = q := by decide

/-- Settles O3: a word decodes exactly when a row selects it, to that row's instruction on the word's fields; the names
tell the rows apart. -/
theorem decoderFollowsOpcodeTable : Obligations.DecoderFollowsOpcodeTable := by
  refine ⟨fun r hr w => ?_, fun w i hi => ?_, fun w hnone => ?_⟩
  · rw [selects_iff_fixedFieldsAgree hr]
    constructor
    · intro h
      exact ⟨_, decodeWord_of_row hr h, mnemonic_onFields _ _⟩
    · rintro ⟨i, hi, hm⟩
      obtain ⟨q, hq, hagree, rfl⟩ := exists_row_of_decodeWord hi
      rw [mnemonic_onFields] at hm
      rwa [row_eq_of_mnemonic_eq r hr q hq hm.symm]
  · obtain ⟨r, -, -, rfl⟩ := exists_row_of_decodeWord hi
    exact operandsAreFieldsOf_onFields r.mnemonic w
  · cases hd : decodeWord w with
    | error e => exact ⟨e, rfl⟩
    | ok i =>
      obtain ⟨r, hr, hagree, -⟩ := exists_row_of_decodeWord hd
      exact absurd ((selects_iff_fixedFieldsAgree hr w).mpr hagree) (hnone r hr)

end Sys2Proof
end

section
/-! SUPPORT. A state keeps everything of itself, and CLEAR, whose display effect is out of scope, answers the very state it
is given (41_system.md R101). -/

namespace Sys2Proof.Machine

/-- Whatever registers are set aside, a state agrees with itself on the others. -/
theorem SameRegsExcept.refl (dests : List RegIdx) (s : State) : SameRegsExcept dests s s := fun _ _ => rfl

theorem SameSystem.refl (s : State) : SameSystem s s where
  memory := fun _ => rfl
  stackPointer := rfl
  liveStack := rfl
  runState := rfl
  fault := rfl
  ir := rfl
  fetchPc := rfl

@[simp] theorem exec_clear (s : State) : exec .clear s = .next s := rfl

/-- Settles O38: the next state of CLEAR is the state itself, so its whole frame is reflexivity. -/
theorem clearHasNoEffect : Obligations.ClearHasNoEffect := by
  unfold Obligations.ClearHasNoEffect
  constructor
  · decide
  · intro s
    exact ⟨s, exec_clear s, rfl, SameRegsExcept.refl [] s, SameSystem.refl s⟩

end Sys2Proof.Machine
end

section
/-! SUPPORT. JUMP (42_control_transfer.md R106): the fields of a word of format A, the address operand as a number, and
that a write to pc keeps everything but pc. -/

namespace Sys2Proof

/-- The fields of a word of format A. -/
theorem fields_append₂ (op : BitVec 4) (a : Addr) : (fields (op ++ a)).op = op ∧ (fields (op ++ a)).addr = a :=
  ⟨op_append op a, addr_append op a⟩

theorem decodeWord_jump (a : Addr) : decodeWord (0x1#4 ++ a) = .ok (.jump a) := by
  obtain ⟨hop, haddr⟩ := fields_append₂ 0x1#4 a
  simp [decodeWord, hop, haddr]

end Sys2Proof

namespace Sys2Proof.Machine

theorem sameRegsExcept_setPc (dests : List RegIdx) (p : Word) (s : State) : SameRegsExcept dests s (setPc p s) :=
  fun r _ => readReg_setPc p r s

theorem sameSystem_setPc (p : Word) (s : State) : SameSystem s (setPc p s) where
  memory := fun c => readMem_setPc c p s
  stackPointer := setPc_sp p s
  liveStack := liveStack_setPc p s
  runState := setPc_runState p s
  fault := setPc_fault p s
  ir := setPc_ir p s
  fetchPc := setPc_fetchPc p s

/-- Zero extension keeps the number: an address is neither scaled nor relative (30_encoding.md R63). -/
@[simp] theorem toNat_addrOperand (a : Addr) : (addrOperand a).toNat = a.toNat :=
  BitVec.toNat_setWidth_of_le (by decide)

@[simp] theorem exec_jump (a : Addr) (s : State) : exec (.jump a) s = .next (setPc (addrOperand a) s) := rfl

/-- Settles O40: JUMP is one write to pc, so its frame is that of `setPc`. -/
theorem jumpSetsPc : Obligations.JumpSetsPc := by
  unfold Obligations.JumpSetsPc
  intro a
  refine ⟨decodeWord_jump a, fun s => ⟨_, exec_jump a s, ?_, sameRegsExcept_setPc [] _ s, sameSystem_setPc _ s⟩⟩
  rw [setPc_pc, toNat_addrOperand]

end Sys2Proof.Machine
end

section
/-! SUPPORT. The skips on an immediate (43_skip.md R115, R116): their words decode to them, and each is one write to pc, of
pc + 2 or of pc itself. -/

namespace Sys2Proof

theorem decodeWord_skipEqImm (x : RegIdx) (kk : Byte) : decodeWord (0x3#4 ++ x ++ kk) = .ok (.skipEqImm x kk) := by
  obtain ⟨hop, hx, hkk⟩ := fields_append₃ 0x3#4 x kk
  simp [decodeWord, hop, hx, hkk]

theorem decodeWord_skipNeqImm (x : RegIdx) (kk : Byte) : decodeWord (0x4#4 ++ x ++ kk) = .ok (.skipNeqImm x kk) := by
  obtain ⟨hop, hx, hkk⟩ := fields_append₃ 0x4#4 x kk
  simp [decodeWord, hop, hx, hkk]

end Sys2Proof

namespace Sys2Proof.Machine

@[simp] theorem exec_skipEqImm (x : RegIdx) (kk : Byte) (s : State) :
    exec (.skipEqImm x kk) s = .next (setPc (if readReg x s = kk then s.pc + 2 else s.pc) s) := by
  have hskip : exec (.skipEqImm x kk) s = .next (skipIf (readReg x s == kk) s) := rfl
  simp only [hskip, skipIf_eq, beq_iff_eq]

@[simp] theorem exec_skipNeqImm (x : RegIdx) (kk : Byte) (s : State) :
    exec (.skipNeqImm x kk) s = .next (setPc (if readReg x s ≠ kk then s.pc + 2 else s.pc) s) := by
  have hskip : exec (.skipNeqImm x kk) s = .next (skipIf (readReg x s != kk) s) := rfl
  simp only [hskip, skipIf_eq, bne_iff_ne]

/-- Settles O42: SKIP-EQ-IMM is one write to pc, so its frame is that of `setPc`. -/
theorem skipEqImmSkipsOnEqual : Obligations.SkipEqImmSkipsOnEqual := by
  unfold Obligations.SkipEqImmSkipsOnEqual
  intro x kk
  exact ⟨decodeWord_skipEqImm x kk, fun s =>
    ⟨_, exec_skipEqImm x kk s, setPc_pc _ s, sameRegsExcept_setPc [] _ s, sameSystem_setPc _ s⟩⟩

/-- Settles O43: SKIP-NEQ-IMM is one write to pc, so its frame is that of `setPc`. -/
theorem skipNeqImmSkipsOnDifferent : Obligations.SkipNeqImmSkipsOnDifferent := by
  unfold Obligations.SkipNeqImmSkipsOnDifferent
  intro x kk
  exact ⟨decodeWord_skipNeqImm x kk, fun s =>
    ⟨_, exec_skipNeqImm x kk s, setPc_pc _ s, sameRegsExcept_setPc [] _ s, sameSystem_setPc _ s⟩⟩

end Sys2Proof.Machine
end

section
/-! SUPPORT. The register-immediate instructions (44_immediate.md R125, R126): their words decode to them, each is one
write to V[x], and a write to a general register keeps everything but that register. -/

namespace Sys2Proof

theorem decodeWord_loadImm (x : RegIdx) (kk : Byte) : decodeWord (0x6#4 ++ x ++ kk) = .ok (.loadImm x kk) := by
  obtain ⟨hop, hx, hkk⟩ := fields_append₃ 0x6#4 x kk
  simp [decodeWord, hop, hx, hkk]

theorem decodeWord_addImm (x : RegIdx) (kk : Byte) : decodeWord (0x7#4 ++ x ++ kk) = .ok (.addImm x kk) := by
  obtain ⟨hop, hx, hkk⟩ := fields_append₃ 0x7#4 x kk
  simp [decodeWord, hop, hx, hkk]

end Sys2Proof

namespace Sys2Proof.Machine

theorem readReg_writeReg_same (x : RegIdx) (v : Byte) (s : State) : readReg x (writeReg x v s) = v := by
  rw [readReg_writeReg, if_pos rfl]

theorem sameRegsExcept_writeReg (x : RegIdx) (v : Byte) (s : State) : SameRegsExcept [x] s (writeReg x v s) := by
  intro r hr
  rw [readReg_writeReg, if_neg (List.ne_of_not_mem_cons hr)]

theorem sameSystem_writeReg (x : RegIdx) (v : Byte) (s : State) : SameSystem s (writeReg x v s) where
  memory := fun c => readMem_writeReg c x v s
  stackPointer := writeReg_sp x v s
  liveStack := liveStack_writeReg x v s
  runState := writeReg_runState x v s
  fault := writeReg_fault x v s
  ir := writeReg_ir x v s
  fetchPc := writeReg_fetchPc x v s

@[simp] theorem exec_loadImm (x : RegIdx) (kk : Byte) (s : State) :
    exec (.loadImm x kk) s = .next (writeReg x kk s) := rfl

@[simp] theorem exec_addImm (x : RegIdx) (kk : Byte) (s : State) :
    exec (.addImm x kk) s = .next (writeReg x (wrapSum (readReg x s) kk) s) := rfl

/-- Settles O46: LOAD-IMM is one write to V[x], so its frame is that of `writeReg`. -/
theorem loadImmWritesImmediate : Obligations.LoadImmWritesImmediate := by
  unfold Obligations.LoadImmWritesImmediate
  intro x kk
  exact ⟨decodeWord_loadImm x kk, fun s =>
    ⟨_, exec_loadImm x kk s, readReg_writeReg_same x kk s, sameRegsExcept_writeReg x kk s, writeReg_pc x kk s,
      sameSystem_writeReg x kk s⟩⟩

/-- Settles O47: ADD-IMM is one write to V[x], of the wrapped sum, so its frame is that of `writeReg`; V[15] is a register
like any other there. -/
theorem addImmWrapsWithoutFlag : Obligations.AddImmWrapsWithoutFlag := by
  unfold Obligations.AddImmWrapsWithoutFlag
  intro x kk
  refine ⟨decodeWord_addImm x kk, fun s =>
    ⟨_, exec_addImm x kk s, ?_, sameRegsExcept_writeReg x _ s, writeReg_pc x _ s, sameSystem_writeReg x _ s⟩⟩
  rw [readReg_writeReg_same, wrapSum_toNat]

end Sys2Proof.Machine
end

section
/-! SUPPORT. LOAD-REG, OR, AND and XOR (45_alu_register.md R130 to R133): family 8 is sub-selected by `n`, and each of the
four is one write to V[x] of a value made from the old V[x] and V[y]. -/

namespace Sys2Proof

/-- All six fields of a word of format R at once, the two overlaps (30_encoding.md R61) in terms of the nibbles. -/
theorem fields_eq_of_format_R (op x y n : BitVec 4) :
    fields (op ++ x ++ y ++ n) = { op := op, x := x, y := y, n := n, kk := y ++ n, addr := x ++ (y ++ n) } := by
  obtain ⟨hop, hx, hy, hn⟩ := fields_append₄ op x y n
  have hkk : (fields (op ++ x ++ y ++ n)).kk = y ++ n := by rw [← kk_of_y_n, hy, hn]
  have haddr : (fields (op ++ x ++ y ++ n)).addr = x ++ (y ++ n) := by rw [← addr_of_x_kk, hx, hkk]
  rw [Fields.mk.injEq]
  exact ⟨hop, hx, hy, hn, hkk, haddr⟩

theorem decodeWord_family8 (x y n : BitVec 4) :
    decodeWord (0x8#4 ++ x ++ y ++ n) =
      decodeFamily8 { op := 0x8, x := x, y := y, n := n, kk := y ++ n, addr := x ++ (y ++ n) } := by
  rw [decodeWord, fields_eq_of_format_R]
  rfl

theorem decodeWord_loadReg (x y : RegIdx) : decodeWord (0x8#4 ++ x ++ y ++ 0x0#4) = .ok (.loadReg x y) :=
  decodeWord_family8 x y 0x0

theorem decodeWord_orReg (x y : RegIdx) : decodeWord (0x8#4 ++ x ++ y ++ 0x1#4) = .ok (.orReg x y) :=
  decodeWord_family8 x y 0x1

theorem decodeWord_andReg (x y : RegIdx) : decodeWord (0x8#4 ++ x ++ y ++ 0x2#4) = .ok (.andReg x y) :=
  decodeWord_family8 x y 0x2

theorem decodeWord_xorReg (x y : RegIdx) : decodeWord (0x8#4 ++ x ++ y ++ 0x3#4) = .ok (.xorReg x y) :=
  decodeWord_family8 x y 0x3

end Sys2Proof

namespace Sys2Proof.Machine

@[simp] theorem exec_loadReg (x y : RegIdx) (s : State) :
    exec (.loadReg x y) s = .next (writeReg x (readReg y s) s) := rfl

@[simp] theorem exec_orReg (x y : RegIdx) (s : State) :
    exec (.orReg x y) s = .next (writeReg x (readReg x s ||| readReg y s) s) := rfl

@[simp] theorem exec_andReg (x y : RegIdx) (s : State) :
    exec (.andReg x y) s = .next (writeReg x (readReg x s &&& readReg y s) s) := rfl

@[simp] theorem exec_xorReg (x y : RegIdx) (s : State) :
    exec (.xorReg x y) s = .next (writeReg x (readReg x s ^^^ readReg y s) s) := rfl

/-- Settles O48: LOAD-REG is one write to V[x], of the old V[y], so its frame is that of `writeReg`. -/
theorem loadRegCopies : Obligations.LoadRegCopies := by
  unfold Obligations.LoadRegCopies
  intro x y
  exact ⟨decodeWord_loadReg x y, fun s =>
    ⟨_, exec_loadReg x y s, readReg_writeReg_same x _ s, sameRegsExcept_writeReg x _ s, writeReg_pc x _ s,
      sameSystem_writeReg x _ s⟩⟩

/-- Settles O49: OR is one write to V[x], and the bits of the value written are the ors of the bits. -/
theorem orIsBitwise : Obligations.OrIsBitwise := by
  unfold Obligations.OrIsBitwise
  intro x y
  refine ⟨decodeWord_orReg x y, fun s =>
    ⟨_, exec_orReg x y s, ?_, sameRegsExcept_writeReg x _ s, writeReg_pc x _ s, sameSystem_writeReg x _ s⟩⟩
  intro k _
  rw [readReg_writeReg_same, BitVec.getLsbD_or]

/-- Settles O50: AND is one write to V[x], and the bits of the value written are the ands of the bits. -/
theorem andIsBitwise : Obligations.AndIsBitwise := by
  unfold Obligations.AndIsBitwise
  intro x y
  refine ⟨decodeWord_andReg x y, fun s =>
    ⟨_, exec_andReg x y s, ?_, sameRegsExcept_writeReg x _ s, writeReg_pc x _ s, sameSystem_writeReg x _ s⟩⟩
  intro k _
  rw [readReg_writeReg_same, BitVec.getLsbD_and]

/-- Settles O51: XOR is one write to V[x], and the bits of the value written are the exclusive ors of the bits; a byte
cancels itself, which is the clause for x = y. -/
theorem xorIsBitwise : Obligations.XorIsBitwise := by
  unfold Obligations.XorIsBitwise
  intro x y
  refine ⟨decodeWord_xorReg x y, fun s =>
    ⟨_, exec_xorReg x y s, ?bits, ?sameRegister, sameRegsExcept_writeReg x _ s, writeReg_pc x _ s,
      sameSystem_writeReg x _ s⟩⟩
  case bits =>
    intro k _
    rw [readReg_writeReg_same, BitVec.getLsbD_xor]
  case sameRegister =>
    rintro rfl
    exact (readReg_writeReg_same x _ s).trans BitVec.xor_self

end Sys2Proof.Machine
end

section
/-! SUPPORT. An illegal word (60_exceptions.md R153): the step that fetches it fetches, advances and raises
UnimplementedInstructionFault, so all it changes is the latches, pc, the record and run_state. -/

namespace Sys2Proof.Machine

theorem Fetches.step_of_decodeWord_error {w : Word} {s : State} {e : DecodeError} (h : Fetches w s)
    (he : decodeWord w = .error e) :
    step s = .next (raise .unimplementedInstruction w s.pc (fetchAndAdvance s)) := by
  obtain ⟨hrun, hrange, rfl⟩ := fetches_iff.mp h
  rw [step_of_fetchable hrun hrange, he]

/-- Settles O26: a word outside the table decodes to an error, and the frame is that of `raise` after that of
`fetchAndAdvance`. -/
theorem illegalWordRaisesUnimplemented : Obligations.IllegalWordRaisesUnimplemented := by
  intro w s hf hnone
  obtain ⟨-, -, decodesToError⟩ := decoderFollowsOpcodeTable
  obtain ⟨e, he⟩ := decodesToError w hnone
  have hraised := raise_spec .unimplementedInstruction w s.pc (fetchAndAdvance s)
  refine ⟨_, hf.step_of_decodeWord_error he, hraised.runState, hraised.fault, ?pc, ?regs, ?memory, ?sp, ?liveStack⟩
  case pc => exact hraised.pc.trans (fetchAndAdvance_pc s)
  case regs => exact fun r hr => (hraised.registers r hr).trans (readReg_fetchAndAdvance r s)
  case memory => exact fun a => (hraised.memory a).trans (readMem_fetchAndAdvance a s)
  case sp => exact hraised.stackPointer.trans (fetchAndAdvance_sp s)
  case liveStack => exact hraised.liveStack.trans (fetchAndAdvance_liveStack s)

end Sys2Proof.Machine
end

section
/-! SUPPORT. Decoding and encoding are inverse to each other: a word decodes to an instruction exactly when it is that
instruction's encoding (30_encoding.md R66, R67). What is legal is then read off the opcode table. -/

namespace Sys2Proof

/-! ## The words of the instructions still without a decoding lemma -/

theorem decodeWord_call (a : Addr) : decodeWord (0x2#4 ++ a) = .ok (.call a) := by
  obtain ⟨hop, haddr⟩ := fields_append₂ 0x2#4 a
  simp [decodeWord, hop, haddr]

theorem decodeWord_family5 (x y n : BitVec 4) :
    decodeWord (0x5#4 ++ x ++ y ++ n) =
      decodeFamily5 { op := 0x5, x := x, y := y, n := n, kk := y ++ n, addr := x ++ (y ++ n) } := by
  rw [decodeWord, fields_eq_of_format_R]
  rfl

theorem decodeWord_skipEqReg (x y : RegIdx) : decodeWord (0x5#4 ++ x ++ y ++ 0x0#4) = .ok (.skipEqReg x y) :=
  decodeWord_family5 x y 0x0

/-- Family 5 has one instruction only (30_encoding.md R69). -/
theorem decodeWord_family5_error (x y : RegIdx) {n : BitVec 4} (hn : n ≠ 0) :
    decodeWord (0x5#4 ++ x ++ y ++ n) = .error .family5 :=
  (decodeWord_family5 x y n).trans (if_neg hn)

theorem decodeWord_addReg (x y : RegIdx) : decodeWord (0x8#4 ++ x ++ y ++ 0x4#4) = .ok (.addReg x y) :=
  decodeWord_family8 x y 0x4

/-! ## The two round trips -/

theorem decodeWord_encode (i : Instr) : decodeWord (encode i) = .ok i := by
  cases i with
  | halt | clear | ret => rfl
  | jump a => exact decodeWord_jump a
  | call a => exact decodeWord_call a
  | skipEqImm x kk => exact decodeWord_skipEqImm x kk
  | skipNeqImm x kk => exact decodeWord_skipNeqImm x kk
  | skipEqReg x y => exact decodeWord_skipEqReg x y
  | loadImm x kk => exact decodeWord_loadImm x kk
  | addImm x kk => exact decodeWord_addImm x kk
  | loadReg x y => exact decodeWord_loadReg x y
  | orReg x y => exact decodeWord_orReg x y
  | andReg x y => exact decodeWord_andReg x y
  | xorReg x y => exact decodeWord_xorReg x y
  | addReg x y => exact decodeWord_addReg x y

/-- Settles O1: decoding the bytes of a word is decoding the word, and the encoding of `i` decodes to `i`. -/
theorem decodeInvertsEncode : Obligations.DecodeInvertsEncode := by
  intro i rest
  rw [decode_wordBytes, decodeWord_encode]
  rfl

/-- A word of format A is its `op` and `addr`. -/
theorem word_eq_of_format_A {w : Word} {op : BitVec 4} (hop : (fields w).op = op) : (op ++ (fields w).addr : Word) = w :=
  hop ▸ word_of_op_addr w

/-- A word of format I is its `op`, `x` and `kk`. -/
theorem word_eq_of_format_I {w : Word} {op : BitVec 4} (hop : (fields w).op = op) :
    (op ++ (fields w).x ++ (fields w).kk : Word) = w :=
  hop ▸ word_of_op_x_kk w

/-- A word of format R is its `op`, `x`, `y` and `n`. -/
theorem word_eq_of_format_R {w : Word} {op n : BitVec 4} (hop : (fields w).op = op) (hn : (fields w).n = n) :
    (op ++ (fields w).x ++ (fields w).y ++ n : Word) = w :=
  hop ▸ hn ▸ word_of_op_x_y_n w

theorem encode_of_decodeFamily0 {w : Word} {i : Instr} (h : decodeFamily0 w = .ok i) : encode i = w := by
  obtain ⟨rfl, rfl⟩ | ⟨rfl, rfl⟩ | ⟨rfl, rfl⟩ := decodeFamily0_cases h <;> rfl

theorem encode_of_decodeFamily8 {w : Word} {i : Instr} (hop : (fields w).op = 8)
    (h : decodeFamily8 (fields w) = .ok i) : encode i = w := by
  obtain ⟨hn, rfl⟩ | ⟨hn, rfl⟩ | ⟨hn, rfl⟩ | ⟨hn, rfl⟩ | ⟨hn, rfl⟩ := decodeFamily8_cases h <;>
    exact word_eq_of_format_R hop hn

/-- Settles O2: every field the decoder reads is put back, and the bits it does not read it has compared. -/
theorem encodeInvertsDecode : Obligations.EncodeInvertsDecode := by
  intro w i h
  obtain ⟨-, h0⟩ | ⟨hop, rfl⟩ | ⟨hop, rfl⟩ | ⟨hop, rfl⟩ | ⟨hop, rfl⟩ | ⟨hop, h5⟩ | ⟨hop, rfl⟩ | ⟨hop, rfl⟩ | ⟨hop, h8⟩ :=
    decodeWord_cases h
  · exact encode_of_decodeFamily0 h0
  · exact word_eq_of_format_A hop
  · exact word_eq_of_format_A hop
  · exact word_eq_of_format_I hop
  · exact word_eq_of_format_I hop
  · obtain ⟨hn, rfl⟩ := decodeFamily5_cases h5
    exact word_eq_of_format_R hop hn
  · exact word_eq_of_format_I hop
  · exact word_eq_of_format_I hop
  · exact encode_of_decodeFamily8 hop h8

/-- The instructions and the legal words correspond one to one. -/
theorem decodeWord_eq_ok_iff {w : Word} {i : Instr} : decodeWord w = .ok i ↔ encode i = w :=
  ⟨encodeInvertsDecode w i, fun h => h ▸ decodeWord_encode i⟩

/-! ## The legal words -/

theorem decodeWord_error_iff_not_ok {w : Word} :
    (∃ e, decodeWord w = .error e) ↔ ¬ ∃ i, decodeWord w = .ok i := by
  cases decodeWord w <;> simp

theorem exists_decodeWord_iff_row {w : Word} :
    (∃ i, decodeWord w = .ok i) ↔ ∃ r ∈ opcodeTable, w &&& r.mask = r.pattern := by
  constructor
  · rintro ⟨i, hi⟩
    obtain ⟨r, hr, hagree, -⟩ := exists_row_of_decodeWord hi
    exact ⟨r, hr, (selects_iff_fixedFieldsAgree hr w).mpr hagree⟩
  · rintro ⟨r, hr, hsel⟩
    exact ⟨_, decodeWord_of_row hr ((selects_iff_fixedFieldsAgree hr w).mp hsel)⟩

theorem legalWord_iff {w : Word} : legalWord w = true ↔ ∃ i, decodeWord w = .ok i := by
  simp [exists_decodeWord_iff_row, legalWord, OpcodeRow.selects]

theorem legalWord_eq_false_iff {w : Word} : legalWord w = false ↔ ∃ e, decodeWord w = .error e := by
  rw [decodeWord_error_iff_not_ok, ← legalWord_iff, Bool.not_eq_true]

/-- The rows of the opcode table as ranges of numbers. -/
theorem exists_decodeWord_iff_ranges {w : Word} :
    (∃ i, decodeWord w = .ok i) ↔
      (w = 0x0000 ∨ w = 0x00E0 ∨ w = 0x00EE) ∨
      (1 ≤ w.toNat / 4096 ∧ w.toNat / 4096 ≤ 7 ∧ (w.toNat / 4096 = 5 → w.toNat % 16 = 0)) ∨
      (w.toNat / 4096 = 8 ∧ w.toNat % 16 ≤ 4) := by
  have hrow : (∃ i, decodeWord w = .ok i) ↔ ∃ r ∈ opcodeTable, r.format.FixedFieldsAgree w r.pattern :=
    exists_decodeWord_iff_row.trans
      (exists_congr fun r => and_congr_right fun hr => selects_iff_fixedFieldsAgree hr w)
  simp only [hrow, opcodeTable, List.cons_append, List.nil_append, List.mem_cons, List.not_mem_nil, or_false,
    exists_eq_or_imp, exists_eq_left, Format.FixedFieldsAgree, BitVec.toNat_eq, toNat_op, toNat_n, BitVec.reduceToNat]
  omega

/-- Settles O4: the instruction a word decodes to has one name, so two rows that select the word have the same name. -/
theorem opcodePatternsAreDisjoint : Obligations.OpcodePatternsAreDisjoint := by
  refine ⟨rfl, fun r hr q hq w hrw hqw => ?_⟩
  obtain ⟨selectsIff, -, -⟩ := decoderFollowsOpcodeTable
  obtain ⟨i, hi, hir⟩ := (selectsIff r hr w).mp hrw
  obtain ⟨j, hj, hjq⟩ := (selectsIff q hq w).mp hqw
  obtain rfl : i = j := Except.ok.inj (hi.symm.trans hj)
  exact row_eq_of_mnemonic_eq r hr q hq (hir.symm.trans hjq)

/-- Settles O5: the four ranges are the complement of the rows' ranges. -/
theorem illegalWordsAreTheFourRanges : Obligations.IllegalWordsAreTheFourRanges := by
  intro w
  rw [decodeWord_error_iff_not_ok, exists_decodeWord_iff_ranges]
  have hw := w.isLt
  simp only [ne_eq, BitVec.toNat_eq, BitVec.reduceToNat]
  omega

/-- Settles O7: twelve closed words, evaluated. -/
theorem wordsOfEveryFamilyDecode : Obligations.WordsOfEveryFamilyDecode := by
  unfold Obligations.WordsOfEveryFamilyDecode
  decide

/-! ## The words of single instructions -/

theorem decodeWord_eq_halt_iff {w : Word} : decodeWord w = .ok .halt ↔ w = 0x0000 :=
  decodeWord_eq_ok_iff.trans eq_comm

theorem decodeWord_eq_ret_iff {w : Word} : decodeWord w = .ok .ret ↔ w = 0x00EE :=
  decodeWord_eq_ok_iff.trans eq_comm

/-- Every word of family 2 is a CALL, and no other is. -/
theorem decodeWord_eq_call_iff {w : Word} : (∃ a, decodeWord w = .ok (.call a)) ↔ w.toNat / 4096 = 2 := by
  have hop : w.toNat / 4096 = 2 ↔ (fields w).op = 0x2#4 := by rw [← toNat_op, BitVec.toNat_eq]; rfl
  rw [hop]
  constructor
  · rintro ⟨a, ha⟩
    rw [← decodeWord_eq_ok_iff.mp ha]
    exact op_append 0x2#4 a
  · intro h
    exact ⟨_, decodeWord_eq_ok_iff.mpr (word_eq_of_format_A h)⟩

end Sys2Proof
end

section
/-! SUPPORT. The invariant under the updates: what keeps it, and that Construct establishes it and every host operation
keeps it (70_reset_and_hazards.md R180, R182). -/

namespace Sys2Proof.Machine

/-! ## The invariant and the updates that do not touch what it speaks of -/

theorem Inv.setPc {s : State} (h : Inv s) (p : Word) : Inv (setPc p s) :=
  ⟨h.memory, h.stackPointer, h.returnAddresses, h.faultRecord⟩

theorem Inv.setLatches {s : State} (h : Inv s) (w f : Word) : Inv (setLatches w f s) :=
  ⟨h.memory, h.stackPointer, h.returnAddresses, h.faultRecord⟩

theorem Inv.writeReg {s : State} (h : Inv s) (r : RegIdx) (v : Byte) : Inv (writeReg r v s) :=
  ⟨h.memory, h.stackPointer, h.returnAddresses, h.faultRecord⟩

theorem Inv.writeMem {s : State} (h : Inv s) (a : Addr) (b : Byte) : Inv (writeMem a b s) :=
  ⟨writeMem_wf h.memory a b, h.stackPointer, h.returnAddresses, h.faultRecord⟩

/-- Outside FAULTED the record is clear, and a state that does not enter FAULTED keeps it so. -/
theorem Inv.setRunState {s : State} (h : Inv s) {r : RunState} (hs : s.runState ≠ .faulted) (hr : r ≠ .faulted) :
    Inv (setRunState r s) :=
  ⟨h.memory, h.stackPointer, h.returnAddresses, fun _ => h.faultRecord.1 hs, fun hf => absurd hf hr⟩

/-- Raising names a kind in the record as it enters FAULTED (60_exceptions.md R155). -/
theorem Inv.raise {s : State} (h : Inv s) {k : FaultKind} (hk : k ≠ .noFault) (w f : Word) : Inv (raise k w f s) :=
  ⟨h.memory, h.stackPointer, h.returnAddresses, fun hf => absurd rfl hf, fun _ => hk⟩

/-! ## Construct -/

theorem liveStack_eq_nil {s : State} (h : s.sp = 0) : s.liveStack = [] := by
  simp [State.liveStack, h]

theorem inv_construct (image : List (Addr × Byte)) (entry : Word) : Inv (construct image entry) where
  memory := imageMemory_wf image
  stackPointer := Nat.zero_le 16
  returnAddresses := by
    rw [StackHoldsReturnAddresses, liveStack_eq_nil (s := construct image entry) rfl]
    simp
  faultRecord := ⟨fun _ => rfl, fun h => nomatch h⟩

/-- `State.reset` is the Construct that loads nothing (log entry 2). -/
theorem reset_eq_construct : State.reset = construct [] Config.resetEntryOffset := rfl

/-- Settles O9: the reset state is itself a constructed one. -/
theorem constructedStatesMeetInvariant : Obligations.ConstructedStatesMeetInvariant :=
  ⟨reset_eq_construct ▸ inv_construct [] Config.resetEntryOffset, inv_construct⟩

theorem imageMemory_append (image : List (Addr × Byte)) (c : Addr × Byte) :
    imageMemory (image ++ [c]) = Memory.write (imageMemory image) c.1.toNat c.2 :=
  List.foldl_append

/-- Of the bytes an image gives an address the last one stands, and 0x00 where it gives none (log entry 2). -/
theorem read_imageMemory (image : List (Addr × Byte)) (a : Addr) :
    Memory.read (imageMemory image) a.toNat = ((image.reverse.find? fun c => c.1 == a).map (·.2)).getD 0x00 := by
  induction image using List.reverseRecOn with
  | nil => rfl
  | append_singleton image c ih =>
    rw [imageMemory_append, Memory.read_write (imageMemory_wf image), ih, List.reverse_append, List.reverse_singleton,
      List.singleton_append]
    by_cases hc : c.1 = a
    · simp [hc]
    · rw [if_neg fun e => hc (BitVec.eq_of_toNat_eq e).symm, List.find?_cons_of_neg (by simpa using hc)]

/-- Construct does not look at the block it resets (70_reset_and_hazards.md R180). -/
theorem blockOp_construct (image : List (Addr × Byte)) (entry : Word) (b : Option State) :
    blockOp (.construct image entry) b = .next (construct image entry, .done) := by
  cases b <;> rfl

/-- Settles O8: Construct answers the same state whatever the block was; its memory is the image's. -/
theorem constructSetsEveryElement : Obligations.ConstructSetsEveryElement := by
  intro image entry b
  refine ⟨_, blockOp_construct image entry b, fun r => ?regs, fun i => ?stack, rfl, rfl, fun a => ?memory, rfl, rfl⟩
  case regs => exact Vector.getElem_replicate r.isLt
  case stack => exact Vector.getElem_replicate i.isLt
  case memory => exact read_imageMemory image a

/-! ## The other host operations -/

/-- Settles O10: of the operations that change the state Construct starts from nothing, the two loads are IDLE updates of
memory and a register, and Run leaves IDLE. -/
theorem hostOperationsKeepInvariant : Obligations.HostOperationsKeepInvariant := by
  intro op s t r hs h
  obtain ⟨image, entry, -, rfl⟩ | ⟨-, a, b, -, rfl⟩ | ⟨-, i, b, -, rfl⟩ | ⟨-, hidle, rfl⟩ | rfl := hostOp_cases h
  · exact inv_construct image entry
  · exact hs.writeMem a b
  · exact hs.writeReg i b
  · exact hs.setRunState (by simp [hidle]) (by simp)
  · exact hs

theorem inIdle_of_idle {s : State} (h : s.runState = .idle) (t : State) : inIdle s t = .next (t, .done) := if_pos h

theorem inIdle_of_ne_idle {s : State} (h : s.runState ≠ .idle) (t : State) :
    inIdle s t = .refused .hostWriteOutsideIdle := if_neg h

/-- Settles O11: in IDLE the two loads are `writeMem` and `writeReg`. -/
theorem hostLoadsOnlyInIdle : Obligations.HostLoadsOnlyInIdle := by
  intro s hwf
  refine ⟨fun hidle => ⟨fun a b => ?loadMem, fun i b => ?loadReg⟩, fun hne => ⟨fun a b => ?noLoadMem, fun i b => ?noLoadReg⟩⟩
  case loadMem =>
    exact ⟨_, inIdle_of_idle hidle _, readMem_writeMem hwf a b, rfl, rfl, rfl, rfl, hidle, rfl⟩
  case loadReg =>
    exact ⟨_, inIdle_of_idle hidle _, fun r => readReg_writeReg i b r s, fun c => readMem_writeReg c i b s, rfl, rfl, rfl,
      hidle, rfl⟩
  case noLoadMem => exact inIdle_of_ne_idle hne _
  case noLoadReg => exact inIdle_of_ne_idle hne _

/-- A probe that answers answers the state it read (70_reset_and_hazards.md R185). -/
theorem eq_of_hostOp_read {op : HostOp} {s t : State} {r : HostReply} (h : hostOp op s = .next (t, r))
    (hop : op = .readStatus ∨ ∃ i, op = .readReg i) : t = s := by
  obtain ⟨image, entry, rfl, -⟩ | ⟨-, a, b, rfl, -⟩ | ⟨-, i, b, rfl, -⟩ | ⟨rfl, -, -⟩ | rfl := hostOp_cases h
  case inr.inr.inr.inr => rfl
  all_goals simp at hop

/-- Settles O12: the frames of `writeMem`, `writeReg` and `setRunState`. -/
theorem hostChangesOnlyWhatItMay : Obligations.HostChangesOnlyWhatItMay := by
  intro op s t r h hop
  have hread := eq_of_hostOp_read h
  obtain ⟨image, entry, rfl, -⟩ | ⟨-, a, b, -, rfl⟩ | ⟨-, i, b, -, rfl⟩ | ⟨hrun, hidle, rfl⟩ | rfl := hostOp_cases h
  · exact absurd rfl (hop image entry)
  · exact ⟨rfl, rfl, rfl, rfl, .inl rfl, hread⟩
  · exact ⟨rfl, rfl, rfl, rfl, .inl rfl, hread⟩
  · exact ⟨rfl, rfl, rfl, rfl, .inr ⟨hrun, hidle, rfl⟩, hread⟩
  · exact ⟨rfl, rfl, rfl, rfl, .inl rfl, hread⟩

theorem startRun_of_idle {s : State} (h : s.runState = .idle) : startRun s = setRunState .running s := if_pos h

theorem startRun_of_ne_idle {s : State} (h : s.runState ≠ .idle) : startRun s = s := if_neg h

theorem hostOp_run (s : State) : hostOp .run s = .next (startRun s, .done) := rfl

/-- Settles O13: in IDLE Run is one write to run_state. -/
theorem runStartsOnlyFromIdle : Obligations.RunStartsOnlyFromIdle := by
  refine fun s => ⟨fun hidle => ?_, fun hne => ?_⟩
  · rw [hostOp_run, startRun_of_idle hidle]
    exact ⟨_, rfl, rfl, rfl, fun _ => rfl, rfl, rfl, rfl, rfl⟩
  · rw [hostOp_run, startRun_of_ne_idle hne]

/-- Outside RUNNING the registers are exposed whatever the embedding is. -/
theorem probeReg_of_ne_running {s : State} (h : s.runState ≠ .running) (i : RegIdx) :
    probeReg i s = .next (s, .reg (readReg i s)) := if_neg fun hr => h hr.1

theorem probeReg_cases (i : RegIdx) (s : State) :
    probeReg i s = .next (s, .reg (readReg i s)) ∨ probeReg i s = .refused .probeNotExposed := by
  unfold probeReg
  split
  · exact .inr rfl
  · exact .inl rfl

/-- Settles O14: the debug hook (log entry 9) decides between the two answers of ReadReg in RUNNING. -/
theorem probesReadTheState : Obligations.ProbesReadTheState :=
  fun s => ⟨rfl, fun i h => probeReg_of_ne_running h i, fun i _ => probeReg_cases i s⟩

/-- Settles O15: the block before its first Construct knows one operation. -/
theorem onlyConstructBeforeFirstConstruct : Obligations.OnlyConstructBeforeFirstConstruct := by
  refine ⟨rfl, fun op hop => ?_⟩
  cases op with
  | construct image entry => exact absurd rfl (hop image entry)
  | writeMem | writeReg | run | readReg | readStatus => rfl

/-! ## The output signals -/

theorem fetchAddr_eq (s : State) : fetchAddr s = BitVec.ofNat 12 s.pc.toNat :=
  BitVec.eq_of_toNat_eq (by simp [fetchAddr])

theorem fetchAddr_add_one (s : State) : fetchAddr s + 1 = BitVec.ofNat 12 (s.pc.toNat + 1) := by
  rw [fetchAddr_eq, BitVec.ofNat_add]
  rfl

theorem not_fetchable_iff {s : State} : ¬ fetchable s = true ↔ 4094 < s.pc.toNat := by
  rw [fetchable_iff, Nat.not_le]

/-- The codes of run_state are different (10_state.md R29). -/
theorem RunState.code_eq_iff (r q : RunState) : r.code.toNat = q.code.toNat ↔ r = q := by
  cases r <;> cases q <;> decide

/-- The codes of the fault kinds are different (60_exceptions.md R150). -/
theorem FaultKind.code_eq_iff (k q : FaultKind) : k.code.toNat = q.code.toNat ↔ k = q := by
  cases k <;> cases q <;> decide

/-- Settles O36: the codes tell the run states and the fault kinds apart, and `mem_addr` is driven where a fetch is
legal. -/
theorem outputSignalsShowTheState : Obligations.OutputSignalsShowTheState := by
  intro i s
  refine ⟨rfl, rfl, rfl, RunState.code_eq_iff _ .idle, RunState.code_eq_iff _ .running, RunState.code_eq_iff _ .halted,
    RunState.code_eq_iff _ .faulted, FaultKind.code_eq_iff _ .noFault, FaultKind.code_eq_iff _ .stackOverflow,
    FaultKind.code_eq_iff _ .stackUnderflow, FaultKind.code_eq_iff _ .unimplementedInstruction,
    FaultKind.code_eq_iff _ .fetchRange, fun hp => ?driven, fun hp => ?notDriven⟩
  case driven =>
    rw [← fetchAddr_add_one, ← fetchAddr_eq]
    exact if_pos (fetchable_iff.mpr hp)
  case notDriven => exact if_neg (not_fetchable_iff.mpr hp)

end Sys2Proof.Machine
end

section
/-! SUPPORT. HALT, the register skip, ADD-REG, CALL and RETURN (41_system.md to 45_alu_register.md): each as the updates it
is made of, and the statements about single instructions. -/

namespace Sys2Proof.Machine

/-! ## HALT -/

@[simp] theorem exec_halt (s : State) : exec .halt s = .next (setRunState .halted s) := rfl

/-- Settles O37: HALT is one write to run_state. -/
theorem haltEndsTheRun : Obligations.HaltEndsTheRun :=
  ⟨decodeWord_encode .halt, fun s =>
    ⟨_, exec_halt s, rfl, rfl, fun _ _ => rfl, fun _ => rfl, rfl, rfl, rfl, rfl, rfl⟩⟩

/-! ## The skips -/

@[simp] theorem exec_skipEqReg (x y : RegIdx) (s : State) :
    exec (.skipEqReg x y) s = .next (setPc (if readReg x s = readReg y s then s.pc + 2 else s.pc) s) := by
  have hskip : exec (.skipEqReg x y) s = .next (skipIf (readReg x s == readReg y s) s) := rfl
  simp only [hskip, skipIf_eq, beq_iff_eq]

/-- Settles O44: SKIP-EQ-REG is one write to pc, so its frame is that of `setPc`. -/
theorem skipEqRegSkipsOnEqual : Obligations.SkipEqRegSkipsOnEqual := by
  intro x y
  refine ⟨decodeWord_skipEqReg x y, fun n hn => ⟨_, decodeWord_family5_error x y hn⟩, fun s =>
    ⟨_, exec_skipEqReg x y s, rfl, fun hxy => ?_, sameRegsExcept_setPc [] _ s, sameSystem_setPc _ s⟩⟩
  rw [setPc_pc, hxy, if_pos rfl]

theorem add_two_add_two (f : Word) : f + 2 + 2 = f + 4 := BitVec.add_assoc f 2 2

/-- Settles O45: both skips are one write to pc, on opposite conditions. -/
theorem skipsAreComplementary : Obligations.SkipsAreComplementary := by
  intro x kk f s hpc
  refine ⟨_, _, exec_skipEqImm x kk s, exec_skipNeqImm x kk s, fun heq => ?equal, fun hne => ?different,
    sameRegsExcept_setPc [] _ s, sameSystem_setPc _ s, sameRegsExcept_setPc [] _ s, sameSystem_setPc _ s⟩
  case equal => simpa [heq, hpc] using add_two_add_two f
  case different => simpa [hne, hpc] using add_two_add_two f

/-! ## ADD-REG -/

@[simp] theorem exec_addReg (x y : RegIdx) (s : State) :
    exec (.addReg x y) s = .next (writeReg 0xF (carryOf (readReg x s) (readReg y s))
      (writeReg x (wrapSum (readReg x s) (readReg y s)) s)) := rfl

theorem carryOf_eq (a b : Byte) : carryOf a b = if 255 < a.toNat + b.toNat then 0x01 else 0x00 := rfl

/-- ADD-REG with a destination other than V[15] leaves the sum there (45_alu_register.md R134). -/
theorem readReg_writeReg_flag {x : RegIdx} (hx : x ≠ 0xF) (c v : Byte) (s : State) :
    readReg x (writeReg 0xF c (writeReg x v s)) = v := by
  rw [readReg_writeReg, if_neg hx, readReg_writeReg_same]

theorem SameRegsExcept.writeReg {dests : List RegIdx} {s t : State} (h : SameRegsExcept dests s t) (x : RegIdx) (v : Byte) :
    SameRegsExcept (dests ++ [x]) s (writeReg x v t) := by
  intro r hr
  rw [List.mem_append, not_or] at hr
  exact (sameRegsExcept_writeReg x v t r hr.2).trans (h r hr.1)

theorem SameSystem.trans {s t u : State} (h : SameSystem s t) (h' : SameSystem t u) : SameSystem s u where
  memory := fun a => (h'.memory a).trans (h.memory a)
  stackPointer := h'.stackPointer.trans h.stackPointer
  liveStack := h'.liveStack.trans h.liveStack
  runState := h'.runState.trans h.runState
  fault := h'.fault.trans h.fault
  ir := h'.ir.trans h.ir
  fetchPc := h'.fetchPc.trans h.fetchPc

/-- Settles O52: ADD-REG is a write to V[x] and then one to V[15], which is the one that stands for x = 15. -/
theorem addRegWritesSumThenCarry : Obligations.AddRegWritesSumThenCarry := by
  intro x y
  refine ⟨decodeWord_addReg x y, fun s => ⟨_, exec_addReg x y s, ?flag, fun hx => ?sum,
    (sameRegsExcept_writeReg x _ s).writeReg 0xF _, rfl, (sameSystem_writeReg x _ s).trans (sameSystem_writeReg 0xF _ _)⟩⟩
  case flag => rw [readReg_writeReg_same, carryOf_eq]
  case sum => rw [readReg_writeReg_flag hx, wrapSum_toNat]

/-- Settles O53: the flag is the quotient of the exact sum by 256 and V[x] the remainder. -/
theorem carryLawIsExact : Obligations.CarryLawIsExact := by
  intro x y s t hx h
  obtain rfl := Host.Outcome.next.inj ((exec_addReg x y s).symm.trans h)
  rw [readReg_writeReg_flag hx, readReg_writeReg_same, wrapSum_toNat, carryOf_toNat]
  have ha := (readReg x s).isLt
  have hb := (readReg y s).isLt
  omega

/-! ## The same register twice -/

/-- Writing a register its own value changes no register. -/
theorem sameRegsExcept_writeReg_self {x : RegIdx} {v : Byte} {s : State} (hv : v = readReg x s) :
    SameRegsExcept [] s (writeReg x v s) := by
  intro r _
  rw [readReg_writeReg]
  split
  · rename_i hr
    rw [hr, hv]
  · rfl

/-- The carry of a byte doubled is its bit 7. -/
theorem carryOf_self (a : Byte) : carryOf a a = if a.getLsbD 7 then 0x01 else 0x00 := by
  have hbit : 255 < a.toNat + a.toNat ↔ a.getLsbD 7 = true := by
    have ha := a.isLt
    rw [BitVec.getLsbD, Nat.testBit_eq_decide_div_mod_eq, decide_eq_true_iff]
    omega
  simp only [carryOf_eq, hbit]

theorem wrapSum_self (a : Byte) : wrapSum a a = a <<< 1 := by
  apply BitVec.eq_of_toNat_eq
  rw [wrapSum_toNat, BitVec.toNat_shiftLeft, Nat.shiftLeft_eq]
  omega

/-- Settles O54: three of the values written are the old V[x], XOR's is 0x00, and ADD-REG's is V[x] shifted. -/
theorem sameRegisterTwice : Obligations.SameRegisterTwice := by
  intro x s
  refine ⟨⟨_, exec_loadReg x x s, sameRegsExcept_writeReg_self rfl⟩,
    ⟨_, exec_orReg x x s, sameRegsExcept_writeReg_self BitVec.or_self⟩,
    ⟨_, exec_andReg x x s, sameRegsExcept_writeReg_self BitVec.and_self⟩,
    ⟨_, exec_xorReg x x s, (readReg_writeReg_same x _ s).trans BitVec.xor_self⟩,
    ⟨_, exec_addReg x x s, ?flag, fun hx => ?sum⟩⟩
  case flag => rw [readReg_writeReg_same, carryOf_self]
  case sum => rw [readReg_writeReg_flag hx, wrapSum_self]

/-! ## CALL and RETURN -/

theorem exec_call_of_full {s : State} (h : s.sp = 16) (a : Addr) :
    exec (.call a) s = .next (raiseAtDispatch .stackOverflow s) := if_pos h

theorem sp_ne_full_of_slot {s : State} {j : Fin 16} (h : s.sp.toNat = j.val) : s.sp ≠ 16 :=
  fun e => absurd (h.symm.trans (congrArg BitVec.toNat e)) (Nat.ne_of_lt j.isLt)

theorem sp_ne_zero_of_entry {s : State} {j : Fin 16} (h : s.sp.toNat = j.val + 1) : s.sp ≠ 0 :=
  fun e => absurd (h.symm.trans (congrArg BitVec.toNat e)) (Nat.succ_ne_zero j.val)

theorem exec_call_of_room {s : State} {j : Fin 16} (h : s.sp.toNat = j.val) (a : Addr) :
    exec (.call a) s = .next (setPc (addrOperand a) (setSp (s.sp + 1) (writeStack j s.pc s))) := by
  have hexec : exec (.call a) s = execCall a s := rfl
  rw [hexec, execCall, if_neg (sp_ne_full_of_slot h), stackSlot_eq_some.mpr h]

theorem exec_ret_of_empty {s : State} (h : s.sp = 0) : exec .ret s = .next (raiseAtDispatch .stackUnderflow s) := if_pos h

theorem exec_ret_of_entry {s : State} {j : Fin 16} (h : s.sp.toNat = j.val + 1) :
    exec .ret s = .next (setPc (readStack j s) (setSp (s.sp - 1) s)) := by
  have hj := j.isLt
  have hslot : stackSlot (s.sp - 1) = some j := by
    rw [stackSlot_eq_some, BitVec.toNat_sub]
    simp [h]
    omega
  have hexec : exec .ret s = execRet s := rfl
  rw [hexec, execRet, if_neg (sp_ne_zero_of_entry h), hslot]

theorem toNat_sp_add_one {s : State} (h : s.sp.toNat < 16) : (s.sp + 1).toNat = s.sp.toNat + 1 := by
  rw [BitVec.toNat_add]
  simp
  omega

theorem toNat_sp_sub_one {s : State} (h : s.sp ≠ 0) : (s.sp - 1).toNat + 1 = s.sp.toNat := by
  have hpos : s.sp.toNat ≠ 0 := fun e => h (BitVec.eq_of_toNat_eq e)
  have hlt := s.sp.isLt
  rw [BitVec.toNat_sub]
  simp
  omega

/-- A stack pointer in range that is not 0 has an entry below it. -/
theorem exists_top_entry {s : State} (hne : s.sp ≠ 0) (hsp : SpInRange s) : ∃ j : Fin 16, s.sp.toNat = j.val + 1 := by
  have htop := toNat_sp_sub_one hne
  have hle : s.sp.toNat ≤ 16 := hsp
  exact ⟨⟨(s.sp - 1).toNat, by omega⟩, htop.symm⟩

theorem raiseAtDispatch_spec (k : FaultKind) (s : State) :
    RaisedFrom k s.ir s.fetchPc s (raiseAtDispatch k s) := raise_spec k s.ir s.fetchPc s

/-- Settles O39: RETURN with an entry is a pop and a write to pc, whose frames are those of `setSp` and `setPc`. -/
theorem returnPopsOrUnderflows : Obligations.ReturnPopsOrUnderflows := by
  refine ⟨decodeWord_encode .ret, fun s hne hsp => ?pop, fun s hs => ?underflow⟩
  case pop =>
    obtain ⟨j, hj⟩ := exists_top_entry hne hsp
    exact ⟨_, exec_ret_of_entry hj, toNat_sp_sub_one hne, liveStack_pop hj, fun _ _ => rfl, fun _ => rfl, rfl, rfl, rfl,
      rfl⟩
  case underflow => exact ⟨_, exec_ret_of_empty hs, raiseAtDispatch_spec .stackUnderflow s⟩

/-- Settles O41: CALL with room is a push and a write to pc, whose frames are those of `writeStack`, `setSp`, `setPc`. -/
theorem callPushesOrOverflows : Obligations.CallPushesOrOverflows := by
  refine fun a => ⟨decodeWord_call a, fun s hs => ?push, fun s hs => ?overflow⟩
  case push =>
    have hj : s.sp.toNat = (⟨s.sp.toNat, hs⟩ : Fin 16).val := rfl
    exact ⟨_, exec_call_of_room hj a, toNat_addrOperand a, toNat_sp_add_one hs, liveStack_push hj s.pc, fun _ _ => rfl,
      fun _ => rfl, rfl, rfl, rfl, rfl⟩
  case overflow => exact ⟨_, exec_call_of_full hs a, raiseAtDispatch_spec .stackOverflow s⟩

end Sys2Proof.Machine
end

section
/-! SUPPORT. What any instruction does to the stack, to memory and to the general registers, each said once, and the
statements over all instructions (10_state.md R21, R22, R26, R27; 42_control_transfer.md R108). -/

namespace Sys2Proof.Machine

/-! ## The stack -/

/-- What an instruction can do to sp and the live stack: nothing, a push of the advanced pc, or a pop into pc. -/
theorem exec_stack_cases {i : Instr} {s t : State} (h : exec i s = .next t) :
    (t.sp = s.sp ∧ t.liveStack = s.liveStack) ∨
    (∃ a, i = .call a ∧ s.sp.toNat < 16 ∧ t.sp.toNat = s.sp.toNat + 1 ∧ t.liveStack = s.liveStack ++ [s.pc]) ∨
    (i = .ret ∧ t.sp.toNat + 1 = s.sp.toNat ∧ s.liveStack = t.liveStack ++ [t.pc]) := by
  obtain ⟨-, rfl⟩ | ⟨p, rfl⟩ | ⟨x, v, rfl⟩ | ⟨x, y, v, c, -, rfl⟩ | ⟨a, rfl, ⟨-, rfl⟩ | ⟨j, hj, rfl⟩⟩ |
    ⟨rfl, ⟨-, rfl⟩ | ⟨j, hj, rfl⟩⟩ := exec_cases h
  · exact .inl ⟨rfl, rfl⟩
  · exact .inl ⟨rfl, rfl⟩
  · exact .inl ⟨rfl, rfl⟩
  · exact .inl ⟨rfl, rfl⟩
  · exact .inl ⟨rfl, rfl⟩
  · have hroom : s.sp.toNat < 16 := hj ▸ j.isLt
    exact .inr (.inl ⟨a, rfl, hroom, toNat_sp_add_one hroom, liveStack_push hj s.pc⟩)
  · exact .inl ⟨rfl, rfl⟩
  · exact .inr (.inr ⟨rfl, toNat_sp_sub_one (sp_ne_zero_of_entry hj), liveStack_pop hj⟩)

/-- Settles O34: the three cases are those of `exec_stack_cases`. -/
theorem onlyCallAndReturnMoveTheStack : Obligations.OnlyCallAndReturnMoveTheStack := by
  intro i s t h
  obtain hkeep | ⟨a, hi, -, hsp, hstack⟩ | hpop := exec_stack_cases h
  · exact .inl hkeep
  · exact .inr (.inl ⟨a, hi, hsp, hstack⟩)
  · exact .inr (.inr hpop)

theorem exec_spInRange {i : Instr} {s t : State} (h : exec i s = .next t) (hs : SpInRange s) : SpInRange t := by
  unfold SpInRange at *
  obtain ⟨hsp, -⟩ | ⟨a, -, hroom, hsp, -⟩ | ⟨-, hsp, -⟩ := exec_stack_cases h
  · rwa [hsp]
  · omega
  · omega

theorem execAll_cons {i : Instr} {s t : State} (h : exec i s = .next t) (rest : List Instr) :
    execAll (i :: rest) s = execAll rest t := by
  rw [execAll, h]

/-- Nested CALLs succeed while there is room, each going one entry deeper. -/
theorem execAll_calls (addrs : List Addr) (s : State) (hroom : s.sp.toNat + addrs.length ≤ 16) :
    ∃ t, execAll (addrs.map .call) s = .next t ∧ t.runState = s.runState ∧
      t.sp.toNat = s.sp.toNat + addrs.length := by
  induction addrs generalizing s with
  | nil => exact ⟨s, rfl, rfl, rfl⟩
  | cons a addrs ih =>
    rw [List.length_cons] at hroom
    have hlt : s.sp.toNat < 16 := by omega
    have hcall := exec_call_of_room (j := ⟨s.sp.toNat, hlt⟩) rfl a
    have hsp := toNat_sp_add_one hlt
    obtain ⟨t, ht, hrun, htsp⟩ := ih (setPc (addrOperand a) (setSp (s.sp + 1) (writeStack ⟨s.sp.toNat, hlt⟩ s.pc s)))
      (by rw [setPc_sp, setSp_sp]; omega)
    refine ⟨t, (execAll_cons hcall _).trans ht, hrun, ?_⟩
    rw [htsp, setPc_sp, setSp_sp, hsp, List.length_cons]
    omega

/-- A RETURN pops what the CALL of its depth pushed: it goes to the CALL's advanced pc, with sp back at its value. -/
theorem exec_ret_after_call {s t u : State} {k : Fin 16} {a : Addr} (hk : s.sp.toNat = k.val)
    (hcall : exec (.call a) s = .next t) (hsp : u.sp.toNat = k.val + 1) (hentry : readStack k u = readStack k t) :
    ∃ v, exec .ret u = .next v ∧ v.pc = s.pc ∧ v.sp = s.sp := by
  obtain rfl := Host.Outcome.next.inj ((exec_call_of_room hk a).symm.trans hcall)
  refine ⟨_, exec_ret_of_entry hsp, ?pc, ?sp⟩
  case pc =>
    rw [setPc_pc, hentry]
    simp
  case sp =>
    have hpop := toNat_sp_sub_one (sp_ne_zero_of_entry hsp)
    apply BitVec.eq_of_toNat_eq
    rw [setPc_sp, setSp_sp]
    omega

/-- Settles O35: P3 is `exec_ret_after_call`, P4 the nested CALLs and the two stack faults. -/
theorem callAndReturnLaws : Obligations.CallAndReturnLaws := by
  refine ⟨fun a s k hk => ?returnAfterCall, fun addrs s h0 hrun hlen => ?nested, fun s h0 => ?underflow,
    fun i s t h hcall hret => ?others⟩
  case returnAfterCall =>
    exact ⟨_, exec_call_of_room hk a, fun u hsp hentry => exec_ret_after_call hk (exec_call_of_room hk a) hsp hentry⟩
  case nested =>
    have h0 : s.sp.toNat = 0 := by rw [h0]; rfl
    obtain ⟨t, ht, htrun, htsp⟩ := execAll_calls addrs s (by omega)
    refine ⟨t, ht, htrun.trans hrun, by omega, fun hfull a => ?_⟩
    have hsp : t.sp = 16 := BitVec.eq_of_toNat_eq (by rw [htsp, h0, hfull]; rfl)
    exact ⟨_, _, _, exec_call_of_full hsp a, raiseAtDispatch_spec .stackOverflow t⟩
  case underflow => exact ⟨_, _, _, exec_ret_of_empty h0, raiseAtDispatch_spec .stackUnderflow s⟩
  case others =>
    obtain hkeep | ⟨a, rfl, -⟩ | ⟨rfl, -⟩ := exec_stack_cases h
    · exact hkeep
    · exact absurd rfl hcall
    · exact absurd rfl hret

/-! ## Memory -/

theorem exec_mem {i : Instr} {s t : State} (h : exec i s = .next t) : t.mem = s.mem := by
  obtain ⟨-, rfl⟩ | ⟨p, rfl⟩ | ⟨x, v, rfl⟩ | ⟨x, y, v, c, -, rfl⟩ | ⟨a, -, ⟨-, rfl⟩ | ⟨j, -, rfl⟩⟩ |
    ⟨-, ⟨-, rfl⟩ | ⟨j, -, rfl⟩⟩ := exec_cases h <;> rfl

/-! ## The general registers -/

/-- The registers an instruction writes: its destination, and V[15] beside it for ADD-REG (10_state.md R21, R22). -/
def writtenRegs : Instr → List RegIdx
  | .addReg x _ => [x, 0xF]
  | i => (destination i).toList

theorem mem_writtenRegs {i : Instr} {r : RegIdx} (h : r ∈ writtenRegs i) :
    destination i = some r ∨ (r = 0xF ∧ i.mnemonic = .ADD_REG) := by
  cases i with
  | addReg x y =>
    rw [writtenRegs, List.mem_pair] at h
    exact h.imp (fun hx => congrArg some hx.symm) (fun hr => ⟨hr, rfl⟩)
  | _ => exact .inl (Option.mem_toList.mp h)

/-- An instruction leaves every register it does not write. -/
theorem exec_sameRegsExcept {i : Instr} {s t : State} (h : exec i s = .next t) :
    SameRegsExcept (writtenRegs i) s t := by
  cases i with
  | halt | clear | jump a => cases h; exact fun _ _ => rfl
  | ret => obtain ⟨-, rfl⟩ | ⟨j, -, rfl⟩ := execRet_cases h <;> exact fun _ _ => rfl
  | call a => obtain ⟨-, rfl⟩ | ⟨j, -, rfl⟩ := execCall_cases h <;> exact fun _ _ => rfl
  | skipEqImm x kk => rw [exec_skipEqImm] at h; cases h; exact sameRegsExcept_setPc _ _ s
  | skipNeqImm x kk => rw [exec_skipNeqImm] at h; cases h; exact sameRegsExcept_setPc _ _ s
  | skipEqReg x y => rw [exec_skipEqReg] at h; cases h; exact sameRegsExcept_setPc _ _ s
  | loadImm x kk | addImm x kk => cases h; exact sameRegsExcept_writeReg x _ s
  | loadReg x y | orReg x y | andReg x y | xorReg x y => cases h; exact sameRegsExcept_writeReg x _ s
  | addReg x y => cases h; exact (sameRegsExcept_writeReg x _ s).writeReg 0xF _

/-- Settles O32: a register that changes is among those the instruction writes. -/
theorem registersChangeOnlyAsDestinations : Obligations.RegistersChangeOnlyAsDestinations := by
  intro i s t r h hchanged
  by_cases hr : r ∈ writtenRegs i
  · exact mem_writtenRegs hr
  · exact absurd (exec_sameRegsExcept h r hr) hchanged

/-- Settles O33: ADD-REG's last write is the carry; any other instruction that changes V[15] names it. -/
theorem flagIsRegisterFifteen : Obligations.FlagIsRegisterFifteen := by
  refine ⟨fun x y s t h => ?addReg, fun i s t h hadd hdest => ?others, fun image entry => ?construct⟩
  case addReg =>
    obtain rfl := Host.Outcome.next.inj ((exec_addReg x y s).symm.trans h)
    rw [readReg_writeReg_same, carryOf_eq]
  case others =>
    by_contra hchanged
    obtain hd | ⟨-, hm⟩ := registersChangeOnlyAsDestinations i s t 0xF h hchanged
    · exact hdest hd
    · exact hadd hm
  case construct => exact Vector.getElem_replicate (by decide)

end Sys2Proof.Machine
end

section
/-! SUPPORT. The step (40_step_cycle.md R80 to R87): what it runs, where it leaves pc, when it ends the run, and what it
keeps. -/

namespace Sys2Proof.Machine

/-! ## What a step runs -/

theorem step_of_out_of_range {s : State} (hr : s.runState = .running) (hp : 4094 < s.pc.toNat) :
    step s = .next (raise .fetchRange 0x0000 s.pc s) := by
  simp only [step, hr, stepRunning, if_neg (not_fetchable_iff.mpr hp)]

theorem Fetches.step_of_decodeWord_ok {w : Word} {s : State} {i : Instr} (h : Fetches w s) (hi : decodeWord w = .ok i) :
    step s = exec i (fetchAndAdvance s) := by
  obtain ⟨hrun, hrange, rfl⟩ := fetches_iff.mp h
  rw [step_of_fetchable hrun hrange, hi]

/-- A state fetches one word. -/
theorem Fetches.fetches_iff_eq {w v : Word} {s : State} (h : Fetches w s) : Fetches v s ↔ w = v :=
  ⟨fun h' => h.word.symm.trans h'.word, fun e => e ▸ h⟩

theorem fetches_fetchWord {s : State} (hr : s.runState = .running) (hp : s.pc.toNat ≤ 4094) : Fetches (fetchWord s) s :=
  fetches_iff.mpr ⟨hr, hp, rfl⟩

theorem not_fetches_of_out_of_range {w : Word} {s : State} (hp : 4094 < s.pc.toNat) : ¬ Fetches w s :=
  fun h => absurd h.inRange (Nat.not_le.mpr hp)

theorem running_of_step {s t : State} (h : step s = .next t) : s.runState = .running := (step_cases h).1

/-- Settles O16: the two bytes make the fetched word, and the state written out is `fetchAndAdvance s`. -/
theorem stepRunsDecodedInstruction : Obligations.StepRunsDecodedInstruction := by
  intro s i hr hp hdecode
  have hword : decodeWord (fetchWord s) = .ok i := by
    have hmap : (decodeWord (fetchWord s)).map (·, ([] : List Byte)) = .ok (i, []) := by rwa [fetchWord_eq]
    cases hd : decodeWord (fetchWord s) with
    | error e => rw [hd] at hmap; cases hmap
    | ok j => rw [hd] at hmap; cases hmap; rfl
  rw [(fetches_fetchWord hr hp).step_of_decodeWord_ok hword, ← fetchWord_eq]
  rfl

/-- Settles O25: outside the legal range the step is `raise` alone. -/
theorem fetchOutsideRangeRaises : Obligations.FetchOutsideRangeRaises :=
  fun s hr hp => ⟨_, step_of_out_of_range hr hp, raise_spec .fetchRange 0x0000 s.pc s⟩

/-! ## The program counter -/

theorem pcAfter_ret_iff {s t : State} :
    PcAfter s t .ret ↔ if s.sp = 0 then t.pc = s.pc + 2 else s.liveStack.getLast? = some t.pc := Iff.rfl

theorem pcAfter_call_iff {s t : State} {a : Addr} :
    PcAfter s t (.call a) ↔ if s.sp = 16 then t.pc = s.pc + 2 else t.pc.toNat = a.toNat := Iff.rfl

theorem pcAfter_ret {s t : State} (h : execRet (fetchAndAdvance s) = .next t) : PcAfter s t .ret := by
  rw [pcAfter_ret_iff]
  obtain ⟨hs, rfl⟩ | ⟨j, hj, rfl⟩ := execRet_cases h
  · exact (if_pos hs).mpr rfl
  · have hj : s.sp.toNat = j.val + 1 := hj
    rw [if_neg (sp_ne_zero_of_entry hj), liveStack_pop hj, List.getLast?_concat]
    rfl

theorem pcAfter_call {s t : State} {a : Addr} (h : execCall a (fetchAndAdvance s) = .next t) : PcAfter s t (.call a) := by
  rw [pcAfter_call_iff]
  obtain ⟨hs, rfl⟩ | ⟨j, hj, rfl⟩ := execCall_cases h
  · exact (if_pos hs).mpr rfl
  · rw [if_neg (sp_ne_full_of_slot (s := s) hj)]
    exact toNat_addrOperand a

/-- How each handler leaves pc, from the state the fetch and the advance give it. -/
theorem exec_pcAfter {i : Instr} {s t : State} (h : exec i (fetchAndAdvance s) = .next t) : PcAfter s t i := by
  cases i with
  | halt | clear | loadImm | addImm | loadReg | orReg | andReg | xorReg | addReg => cases h; rfl
  | ret => exact pcAfter_ret h
  | jump a => cases h; exact toNat_addrOperand a
  | call a => exact pcAfter_call h
  | skipEqImm x kk =>
    rw [exec_skipEqImm] at h
    cases h
    simp only [PcAfter, setPc_pc, fetchAndAdvance_pc, readReg_fetchAndAdvance, add_two_add_two]
  | skipNeqImm x kk =>
    rw [exec_skipNeqImm] at h
    cases h
    simp only [PcAfter, setPc_pc, fetchAndAdvance_pc, readReg_fetchAndAdvance, add_two_add_two, ne_eq, ite_not]
  | skipEqReg x y =>
    rw [exec_skipEqReg] at h
    cases h
    simp only [PcAfter, setPc_pc, fetchAndAdvance_pc, readReg_fetchAndAdvance, add_two_add_two]

/-- Settles O18: a step of a decoded word is its handler. -/
theorem pcAfterEveryInstruction : Obligations.PcAfterEveryInstruction := by
  intro w i s t hf hi h
  exact exec_pcAfter ((hf.step_of_decodeWord_ok hi).symm.trans h)

theorem toNat_pc_add {s : State} (hp : s.pc.toNat ≤ 4094) :
    (s.pc + 2).toNat = s.pc.toNat + 2 ∧ (s.pc + 4).toNat = s.pc.toNat + 4 := by
  simp only [BitVec.toNat_add, BitVec.reduceToNat]
  omega

/-- No instruction leaves pc beyond a skip from the last legal address (10_state.md R25). -/
theorem PcAfter.toNat_le {i : Instr} {s t : State} (h : PcAfter s t i) (hp : s.pc.toNat ≤ 4094)
    (hstack : StackHoldsReturnAddresses s) : t.pc.toNat ≤ 4098 := by
  obtain ⟨h2, h4⟩ := toNat_pc_add hp
  cases i with
  | halt | clear | loadImm | addImm | loadReg | orReg | andReg | xorReg | addReg =>
    rw [show t.pc = s.pc + 2 from h]
    omega
  | jump a =>
    have ha := a.isLt
    have hpc : t.pc.toNat = a.toNat := h
    omega
  | skipEqImm | skipNeqImm | skipEqReg => rw [PcAfter] at h; rw [h]; split <;> omega
  | ret =>
    rw [pcAfter_ret_iff] at h
    split at h
    · rw [h]; omega
    · have hlast := hstack _ (List.mem_of_getLast? h)
      omega
  | call a =>
    rw [pcAfter_call_iff] at h
    have ha := a.isLt
    split at h
    · rw [h]; omega
    · omega

/-- Settles O23: the bound is that of each instruction; a raised fault leaves pc where the fetch left it. -/
theorem pcNeverWraps : Obligations.PcNeverWraps := by
  intro s t hs h
  obtain ⟨-, ⟨hp, rfl⟩ | ⟨hp, e, -, rfl⟩ | ⟨hp, i, -, hexec⟩⟩ := step_cases h
  · exact ⟨fun hle => absurd hle (Nat.not_le.mpr hp), fun _ => rfl⟩
  · refine ⟨fun _ => ?_, fun hlt => absurd hp (Nat.not_le.mpr hlt)⟩
    rw [raise_pc, fetchAndAdvance_pc, (toNat_pc_add hp).1]
    omega
  · exact ⟨fun _ => (exec_pcAfter hexec).toNat_le hp hs.returnAddresses, fun hlt => absurd hp (Nat.not_le.mpr hlt)⟩

/-! ## The end of a run -/

/-- The fault an instruction raises at dispatch: CALL on a full stack, RETURN on an empty one (60_exceptions.md R151,
R152). -/
def stackFault (s : State) : Instr → Option FaultKind
  | .call _ => if s.sp = 16 then some .stackOverflow else none
  | .ret => if s.sp = 0 then some .stackUnderflow else none
  | _ => none

theorem stackFault_eq_some_iff {s : State} {i : Instr} {k : FaultKind} :
    stackFault s i = some k ↔
      (s.sp = 16 ∧ (∃ a, i = .call a) ∧ k = .stackOverflow) ∨ (s.sp = 0 ∧ i = .ret ∧ k = .stackUnderflow) := by
  cases i with
  | call a => simp [stackFault, eq_comm (a := k)]
  | ret => simp [stackFault, eq_comm (a := k)]
  | _ => simp [stackFault]

theorem exec_of_stackFault {s : State} {i : Instr} {k : FaultKind} (h : stackFault s i = some k) :
    exec i s = .next (raiseAtDispatch k s) := by
  obtain ⟨hsp, ⟨a, rfl⟩, rfl⟩ | ⟨hsp, rfl, rfl⟩ := stackFault_eq_some_iff.mp h
  · exact exec_call_of_full hsp a
  · exact exec_ret_of_empty hsp

/-- An instruction that raises nothing leaves the record, and only HALT ends the run. -/
theorem exec_of_no_stackFault {s t : State} {i : Instr} (hno : stackFault s i = none) (h : exec i s = .next t) :
    t.fault = s.fault ∧ ((i = .halt ∧ t.runState = .halted) ∨ (i ≠ .halt ∧ t.runState = s.runState)) := by
  cases i with
  | halt => cases h; exact ⟨rfl, .inl ⟨rfl, rfl⟩⟩
  | ret =>
    obtain ⟨hsp, -⟩ | ⟨j, -, rfl⟩ := execRet_cases h
    · simp [stackFault, hsp] at hno
    · exact ⟨rfl, .inr ⟨nofun, rfl⟩⟩
  | call a =>
    obtain ⟨hsp, -⟩ | ⟨j, -, rfl⟩ := execCall_cases h
    · simp [stackFault, hsp] at hno
    · exact ⟨rfl, .inr ⟨nofun, rfl⟩⟩
  | skipEqImm x kk => rw [exec_skipEqImm] at h; cases h; exact ⟨rfl, .inr ⟨nofun, rfl⟩⟩
  | skipNeqImm x kk => rw [exec_skipNeqImm] at h; cases h; exact ⟨rfl, .inr ⟨nofun, rfl⟩⟩
  | skipEqReg x y => rw [exec_skipEqReg] at h; cases h; exact ⟨rfl, .inr ⟨nofun, rfl⟩⟩
  | clear | jump | loadImm | addImm | loadReg | orReg | andReg | xorReg | addReg =>
    cases h; exact ⟨rfl, .inr ⟨nofun, rfl⟩⟩

/-- From RUNNING, HALT halts, the stack faults fault, and everything else goes on. -/
theorem exec_outcome {s t : State} {i : Instr} (hr : s.runState = .running) (h : exec i s = .next t) :
    (t.runState = .halted ↔ i = .halt) ∧ (t.runState = .faulted ↔ ∃ k, stackFault s i = some k) ∧
      t.runState ≠ .idle := by
  cases hk : stackFault s i with
  | some k =>
    obtain rfl := Host.Outcome.next.inj ((exec_of_stackFault hk).symm.trans h)
    have hne : i ≠ .halt := by rintro rfl; simp [stackFault] at hk
    simp [raiseAtDispatch, hne]
  | none =>
    obtain ⟨-, ⟨hi, ht⟩ | ⟨hi, ht⟩⟩ := exec_of_no_stackFault hk h
    · simp [hi, ht]
    · simp [hi, ht, hr]

/-- With sp in 0 to 16 every handler answers. -/
theorem exec_total {s : State} (hsp : SpInRange s) (i : Instr) : ∃ t, exec i s = .next t := by
  cases i with
  | ret =>
    by_cases h : s.sp = 0
    · exact ⟨_, exec_ret_of_empty h⟩
    · obtain ⟨j, hj⟩ := exists_top_entry h hsp
      exact ⟨_, exec_ret_of_entry hj⟩
  | call a =>
    by_cases h : s.sp = 16
    · exact ⟨_, exec_call_of_full h a⟩
    · have hne : s.sp.toNat ≠ 16 := fun e => h (BitVec.eq_of_toNat_eq e)
      have hlt : s.sp.toNat < 16 := Nat.lt_of_le_of_ne hsp hne
      exact ⟨_, exec_call_of_room (j := ⟨_, hlt⟩) rfl a⟩
  | _ => exact ⟨_, rfl⟩

/-- The words at which a step raises a stack fault. -/
theorem exists_stackFault_iff {s : State} {w : Word} {i : Instr} (hi : decodeWord w = .ok i) :
    (∃ k, stackFault s i = some k) ↔ (w.toNat / 4096 = 2 ∧ s.sp = 16) ∨ (w = 0x00EE ∧ s.sp = 0) := by
  rw [← decodeWord_eq_call_iff, ← decodeWord_eq_ret_iff, hi]
  simp only [stackFault_eq_some_iff, Except.ok.injEq]
  constructor
  · rintro ⟨k, ⟨hsp, hcall, -⟩ | ⟨hsp, hret, -⟩⟩
    · exact .inl ⟨hcall, hsp⟩
    · exact .inr ⟨hret, hsp⟩
  · rintro (⟨hcall, hsp⟩ | ⟨hret, hsp⟩)
    · exact ⟨_, .inl ⟨hsp, hcall, rfl⟩⟩
    · exact ⟨_, .inr ⟨hsp, hret, rfl⟩⟩

theorem RunState.eq_running_iff {r : RunState} (h : r ≠ .idle) : r = .running ↔ r ≠ .halted ∧ r ≠ .faulted := by
  revert h
  cases r <;> decide

/-- Settles O19: a step is a range fault, an unimplemented fault, or a handler that answers; its run state then is that of
`raise` or of the handler. -/
theorem stepOutcomeIsOneOfThree : Obligations.StepOutcomeIsOneOfThree := by
  intro s hr hsp
  by_cases hp : s.pc.toNat ≤ 4094
  case neg =>
    have hp := Nat.not_le.mp hp
    refine ⟨_, step_of_out_of_range hr hp, ?_⟩
    simp [not_fetches_of_out_of_range hp, hp]
  case pos =>
    have hf := fetches_fetchWord hr hp
    simp only [hf.fetches_iff_eq, exists_eq_left']
    cases hd : decodeWord (fetchWord s) with
    | error e =>
      have hillegal := legalWord_eq_false_iff.mpr ⟨e, hd⟩
      have hne : fetchWord s ≠ 0x0000 := fun h0 => by rw [decodeWord_eq_halt_iff.mpr h0] at hd; cases hd
      refine ⟨_, hf.step_of_decodeWord_error hd, ?_⟩
      simpa [hillegal] using hne
    | ok i =>
      obtain ⟨t, ht⟩ := exec_total (s := fetchAndAdvance s) hsp i
      obtain ⟨hhalted, hfaulted, hidle⟩ := exec_outcome (s := fetchAndAdvance s) hr ht
      have hlegal : legalWord (fetchWord s) ≠ false := by
        rw [ne_eq, Bool.not_eq_false, legalWord_iff]
        exact ⟨i, hd⟩
      refine ⟨t, (hf.step_of_decodeWord_ok hd).trans ht, ?halted, ?faulted, ?running⟩
      case halted => rw [hhalted, ← decodeWord_eq_halt_iff, hd, Except.ok.injEq]
      case faulted =>
        rw [hfaulted, exists_stackFault_iff hd]
        simp [Nat.not_lt.mpr hp, hlegal]
      case running => exact RunState.eq_running_iff hidle

/-- Everything that can have happened in a step that ends FAULTED (60_exceptions.md R150). -/
theorem step_faulted_cases {s t : State} (h : step s = .next t) (ht : t.runState = .faulted) :
    (4094 < s.pc.toNat ∧ t = raise .fetchRange 0x0000 s.pc s) ∨
    (∃ w k, Fetches w s ∧ t = raise k w s.pc (fetchAndAdvance s) ∧
      ((w.toNat / 4096 = 2 ∧ s.sp = 16 ∧ k = .stackOverflow) ∨ (w = 0x00EE ∧ s.sp = 0 ∧ k = .stackUnderflow) ∨
        (legalWord w = false ∧ k = .unimplementedInstruction))) := by
  obtain ⟨hr, ⟨hp, rfl⟩ | ⟨hp, e, he, rfl⟩ | ⟨hp, i, hi, hexec⟩⟩ := step_cases h
  · exact .inl ⟨hp, rfl⟩
  · exact .inr ⟨_, _, fetches_fetchWord hr hp, rfl, .inr (.inr ⟨legalWord_eq_false_iff.mpr ⟨e, he⟩, rfl⟩)⟩
  · obtain ⟨-, hfaulted, -⟩ := exec_outcome (s := fetchAndAdvance s) hr hexec
    obtain ⟨k, hk⟩ := hfaulted.mp ht
    obtain rfl := Host.Outcome.next.inj ((exec_of_stackFault hk).symm.trans hexec)
    refine .inr ⟨_, k, fetches_fetchWord hr hp, rfl, ?_⟩
    obtain ⟨hsp, ⟨a, rfl⟩, rfl⟩ | ⟨hsp, rfl, rfl⟩ := stackFault_eq_some_iff.mp hk
    · exact .inl ⟨decodeWord_eq_call_iff.mp ⟨a, hi⟩, hsp, rfl⟩
    · exact .inr (.inl ⟨decodeWord_eq_ret_iff.mp hi, hsp, rfl⟩)

/-- Settles O27: a faulting step is `raise`, on the state itself or on the fetched and advanced one. -/
theorem faultsArePrecise : Obligations.FaultsArePrecise := by
  intro s t h ht
  obtain ⟨hp, rfl⟩ | ⟨w, k, hf, rfl, hcause⟩ := step_faulted_cases h ht
  · exact ⟨fun _ _ => rfl, fun _ => rfl, rfl, rfl, .inl ⟨hp, rfl, rfl⟩⟩
  · refine ⟨fun _ _ => rfl, fun _ => rfl, rfl, rfl, .inr ⟨w, hf, rfl, ?_⟩⟩
    obtain ⟨hw, hsp, rfl⟩ | ⟨hw, hsp, rfl⟩ | ⟨hw, rfl⟩ := hcause
    · exact .inl ⟨hw, hsp, rfl⟩
    · exact .inr (.inl ⟨hw, hsp, rfl⟩)
    · exact .inr (.inr ⟨hw, rfl⟩)

/-- A step that does not end FAULTED leaves the record. -/
theorem step_fault_of_ne_faulted {s t : State} (h : step s = .next t) (ht : t.runState ≠ .faulted) :
    t.fault = s.fault := by
  obtain ⟨hr, ⟨-, rfl⟩ | ⟨-, e, -, rfl⟩ | ⟨-, i, -, hexec⟩⟩ := step_cases h
  · exact absurd rfl ht
  · exact absurd rfl ht
  · cases hk : stackFault (fetchAndAdvance s) i with
    | some k =>
      obtain ⟨-, hfaulted, -⟩ := exec_outcome (s := fetchAndAdvance s) hr hexec
      exact absurd (hfaulted.mpr ⟨k, hk⟩) ht
    | none => exact (exec_of_no_stackFault hk hexec).1

/-- A host operation that leaves a constructed block constructed leaves the record. -/
theorem hostOp_fault {op : HostOp} {s t : State} {r : HostReply} (h : hostOp op s = .next (t, r)) :
    (∃ image entry, op = .construct image entry) ∨ t.fault = s.fault := by
  obtain ⟨image, entry, hop, -⟩ | ⟨-, a, b, -, rfl⟩ | ⟨-, i, b, -, rfl⟩ | ⟨-, -, rfl⟩ | rfl := hostOp_cases h
  · exact .inl ⟨image, entry, hop⟩
  all_goals exact .inr rfl

/-- Settles O28: a step that does not end FAULTED leaves the record, and so does every host operation but Construct. -/
theorem faultRecordWrittenOnce : Obligations.FaultRecordWrittenOnce := by
  refine ⟨fun s t h hchanged => ⟨running_of_step h, ?_⟩, fun s t hs h => ?_, fun op s t r h hchanged => ?_⟩
  · by_contra ht
    exact hchanged (step_fault_of_ne_faulted h ht)
  · have hr := running_of_step h
    rw [hs] at hr
    cases hr
  · exact (hostOp_fault h).resolve_right hchanged

/-- Settles O20: outside IDLE the loads are refused and Run is ignored, so nothing but Construct is left. -/
theorem noStepOutsideRunning : Obligations.NoStepOutsideRunning := by
  refine ⟨fun s t hs h => hs (running_of_step h), fun op s t r hended h hop => ?_⟩
  have hidle : s.runState ≠ .idle := by
    intro hi
    simp [RunEnded, hi] at hended
  obtain ⟨image, entry, rfl, -⟩ | ⟨hi, -⟩ | ⟨hi, -⟩ | ⟨-, hi, -⟩ | rfl := hostOp_cases h
  · exact absurd rfl (hop image entry)
  · exact absurd hi hidle
  · exact absurd hi hidle
  · exact absurd hi hidle
  · rfl

/-! ## The invariant -/

theorem Inv.push {s : State} (h : Inv s) {j : Fin 16} (hj : s.sp.toNat = j.val) {v : Word}
    (hv : 2 ≤ v.toNat ∧ v.toNat ≤ 4096) : Inv (setSp (s.sp + 1) (writeStack j v s)) where
  memory := h.memory
  stackPointer := by
    have hlt : s.sp.toNat < 16 := hj ▸ j.isLt
    rw [SpInRange, setSp_sp, toNat_sp_add_one hlt]
    omega
  returnAddresses := by
    intro u hu
    rw [liveStack_push hj, List.mem_append, List.mem_singleton] at hu
    obtain hu | rfl := hu
    · exact h.returnAddresses u hu
    · exact hv
  faultRecord := h.faultRecord

theorem Inv.pop {s : State} (h : Inv s) {j : Fin 16} (hj : s.sp.toNat = j.val + 1) : Inv (setSp (s.sp - 1) s) where
  memory := h.memory
  stackPointer := by
    have htop := toNat_sp_sub_one (sp_ne_zero_of_entry hj)
    have hle : s.sp.toNat ≤ 16 := h.stackPointer
    rw [SpInRange, setSp_sp]
    omega
  returnAddresses := fun v hv => h.returnAddresses v (liveStack_pop hj ▸ List.mem_append_left _ hv)
  faultRecord := h.faultRecord

/-- A handler keeps the invariant where the advanced pc, which CALL pushes, is a return address. -/
theorem Inv.exec {i : Instr} {s t : State} (h : Inv s) (hr : s.runState = .running)
    (hpc : 2 ≤ s.pc.toNat ∧ s.pc.toNat ≤ 4096) (hexec : exec i s = .next t) : Inv t := by
  obtain ⟨-, rfl⟩ | ⟨p, rfl⟩ | ⟨x, v, rfl⟩ | ⟨x, y, v, c, -, rfl⟩ | ⟨a, -, ⟨-, rfl⟩ | ⟨j, hj, rfl⟩⟩ |
    ⟨-, ⟨-, rfl⟩ | ⟨j, hj, rfl⟩⟩ := exec_cases hexec
  · exact h.setRunState (by simp [hr]) (by simp)
  · exact h.setPc p
  · exact h.writeReg x v
  · exact (h.writeReg x v).writeReg 0xF c
  · exact h.raise (by simp) _ _
  · exact (h.push hj hpc).setPc _
  · exact h.raise (by simp) _ _
  · exact (h.pop hj).setPc _

theorem Inv.fetchAndAdvance {s : State} (h : Inv s) : Inv (fetchAndAdvance s) := (h.setLatches _ _).setPc _

/-- Settles O21: the pc a CALL pushes is the address of a legal fetch plus 2. -/
theorem stepKeepsInvariant : Obligations.StepKeepsInvariant := by
  intro s t hs h
  obtain ⟨hr, ⟨-, rfl⟩ | ⟨-, e, -, rfl⟩ | ⟨hp, i, -, hexec⟩⟩ := step_cases h
  · exact hs.raise (by simp) _ _
  · exact hs.fetchAndAdvance.raise (by simp) _ _
  · refine hs.fetchAndAdvance.exec hr ?_ hexec
    rw [fetchAndAdvance_pc, (toNat_pc_add hp).1]
    omega

theorem step_spInRange {s t : State} (hs : SpInRange s) (h : step s = .next t) : SpInRange t := by
  obtain ⟨-, ⟨-, rfl⟩ | ⟨-, e, -, rfl⟩ | ⟨-, i, -, hexec⟩⟩ := step_cases h
  · exact hs
  · exact hs
  · exact exec_spInRange hexec hs

/-- Settles O22: the step moves sp as its handler does, and no host operation but Construct writes sp. -/
theorem stackPointerStaysInRange : Obligations.StackPointerStaysInRange := by
  refine ⟨fun _ _ => rfl, fun s t => step_spInRange, fun op s t r hs h => ?_⟩
  obtain ⟨image, entry, -, rfl⟩ | ⟨-, a, b, -, rfl⟩ | ⟨-, i, b, -, rfl⟩ | ⟨-, -, rfl⟩ | rfl := hostOp_cases h
  · exact Nat.zero_le 16
  all_goals exact hs

end Sys2Proof.Machine
end

section
/-! SUPPORT. States no observer can tell apart (10_state.md R26, R31): the updates, the handlers, the step and the host's
operations act alike on them. -/

namespace Sys2Proof.Machine

/-! ## Reading and updating two such states -/

theorem Indistinguishable.refl (s : State) : Indistinguishable s s := ⟨rfl, rfl, rfl, rfl, rfl, rfl, rfl⟩

theorem Indistinguishable.trans {s t u : State} (h : Indistinguishable s t) (h' : Indistinguishable t u) :
    Indistinguishable s u where
  registers := h'.registers.trans h.registers
  pc := h'.pc.trans h.pc
  stackPointer := h'.stackPointer.trans h.stackPointer
  liveStack := h'.liveStack.trans h.liveStack
  memory := h'.memory.trans h.memory
  runState := h'.runState.trans h.runState
  fault := h'.fault.trans h.fault

section
variable {s s' : State} (h : Indistinguishable s s')
include h

theorem Indistinguishable.readReg_eq (r : RegIdx) : readReg r s' = readReg r s := by
  unfold readReg
  simp only [h.registers]

theorem Indistinguishable.regOperand_eq (r : RegIdx) : regOperand r s' = regOperand r s := h.readReg_eq r

theorem Indistinguishable.readMem_eq (a : Addr) : readMem a s' = readMem a s := by
  rw [readMem, readMem, h.memory]

theorem Indistinguishable.fetchWord_eq : fetchWord s' = fetchWord s := by
  rw [Machine.fetchWord_eq, Machine.fetchWord_eq, h.pc, h.readMem_eq, h.readMem_eq]

/-- The entry on top is live, so the two stacks agree on it. -/
theorem Indistinguishable.readStack_eq {j : Fin 16} (hj : s.sp.toNat = j.val + 1) : readStack j s' = readStack j s := by
  have hlive : j.val < s.sp.toNat := by omega
  have hlive' : j.val < s'.sp.toNat := by rwa [h.stackPointer]
  apply Option.some.inj
  rw [← getElem?_liveStack s j hlive, ← getElem?_liveStack s' j hlive', h.liveStack]

theorem Indistinguishable.setPc (p : Word) : Indistinguishable (setPc p s) (setPc p s') :=
  ⟨h.registers, rfl, h.stackPointer, h.liveStack, h.memory, h.runState, h.fault⟩

theorem Indistinguishable.setLatches (w f w' f' : Word) : Indistinguishable (setLatches w f s) (setLatches w' f' s') :=
  ⟨h.registers, h.pc, h.stackPointer, h.liveStack, h.memory, h.runState, h.fault⟩

theorem Indistinguishable.setRunState (r : RunState) : Indistinguishable (setRunState r s) (setRunState r s') :=
  ⟨h.registers, h.pc, h.stackPointer, h.liveStack, h.memory, rfl, h.fault⟩

theorem Indistinguishable.raise (k : FaultKind) (w f : Word) : Indistinguishable (raise k w f s) (raise k w f s') :=
  ⟨h.registers, h.pc, h.stackPointer, h.liveStack, h.memory, rfl, rfl⟩

theorem Indistinguishable.writeReg (r : RegIdx) (v : Byte) : Indistinguishable (writeReg r v s) (writeReg r v s') :=
  ⟨by rw [writeReg_regs, writeReg_regs, h.registers], h.pc, h.stackPointer, h.liveStack, h.memory, h.runState, h.fault⟩

theorem Indistinguishable.writeMem (a : Addr) (b : Byte) : Indistinguishable (writeMem a b s) (writeMem a b s') :=
  ⟨h.registers, h.pc, h.stackPointer, h.liveStack, by rw [writeMem_mem, writeMem_mem, h.memory], h.runState, h.fault⟩

theorem Indistinguishable.push {j : Fin 16} (hj : s.sp.toNat = j.val) (v : Word) :
    Indistinguishable (setSp (s.sp + 1) (writeStack j v s)) (setSp (s'.sp + 1) (writeStack j v s')) where
  registers := h.registers
  pc := h.pc
  stackPointer := by rw [setSp_sp, setSp_sp, h.stackPointer]
  liveStack := by rw [liveStack_push hj, liveStack_push (h.stackPointer ▸ hj), h.liveStack]
  memory := h.memory
  runState := h.runState
  fault := h.fault

theorem Indistinguishable.pop {j : Fin 16} (hj : s.sp.toNat = j.val + 1) :
    Indistinguishable (setSp (s.sp - 1) s) (setSp (s'.sp - 1) s') where
  registers := h.registers
  pc := h.pc
  stackPointer := by rw [setSp_sp, setSp_sp, h.stackPointer]
  liveStack := by
    have hj' : s'.sp.toNat = j.val + 1 := h.stackPointer ▸ hj
    have hcat : (setSp (s'.sp - 1) s').liveStack ++ [readStack j s'] =
        (setSp (s.sp - 1) s).liveStack ++ [readStack j s] := by
      rw [← liveStack_pop hj, ← liveStack_pop hj', h.liveStack]
    exact (List.append_inj' hcat rfl).1
  memory := h.memory
  runState := h.runState
  fault := h.fault

/-- After the fetch even the latches agree. -/
theorem Indistinguishable.fetchAndAdvance : Indistinguishable (fetchAndAdvance s) (fetchAndAdvance s') := by
  rw [fetchAndAdvance_eq, fetchAndAdvance_eq, h.pc]
  exact (h.setLatches _ _ _ _).setPc _

/-! ## The handlers, the step, the host -/

theorem Indistinguishable.execRet (hir : s'.ir = s.ir) (hfpc : s'.fetchPc = s.fetchPc) {t : State}
    (ht : exec .ret s = .next t) : ∃ t', exec .ret s' = .next t' ∧ Indistinguishable t t' := by
  obtain ⟨hsp, rfl⟩ | ⟨j, hj, rfl⟩ := execRet_cases ht
  · refine ⟨_, exec_ret_of_empty (h.stackPointer.trans hsp), ?_⟩
    rw [raiseAtDispatch, raiseAtDispatch, hir, hfpc]
    exact h.raise _ _ _
  · refine ⟨_, exec_ret_of_entry (j := j) (h.stackPointer ▸ hj), ?_⟩
    rw [h.readStack_eq hj]
    exact (h.pop hj).setPc _

theorem Indistinguishable.execCall (hir : s'.ir = s.ir) (hfpc : s'.fetchPc = s.fetchPc) {t : State} {a : Addr}
    (ht : exec (.call a) s = .next t) : ∃ t', exec (.call a) s' = .next t' ∧ Indistinguishable t t' := by
  obtain ⟨hsp, rfl⟩ | ⟨j, hj, rfl⟩ := execCall_cases ht
  · refine ⟨_, exec_call_of_full (h.stackPointer.trans hsp) a, ?_⟩
    rw [raiseAtDispatch, raiseAtDispatch, hir, hfpc]
    exact h.raise _ _ _
  · refine ⟨_, exec_call_of_room (j := j) (h.stackPointer ▸ hj) a, ?_⟩
    rw [h.pc]
    exact (h.push hj _).setPc _

/-- Every handler acts alike on two such states with the same latches: it reads registers, pc and the entry on top. -/
theorem Indistinguishable.exec (hir : s'.ir = s.ir) (hfpc : s'.fetchPc = s.fetchPc) {t : State} {i : Instr}
    (ht : exec i s = .next t) : ∃ t', exec i s' = .next t' ∧ Indistinguishable t t' := by
  cases i with
  | halt => cases ht; exact ⟨_, rfl, h.setRunState _⟩
  | clear => cases ht; exact ⟨_, rfl, h⟩
  | ret => exact h.execRet hir hfpc ht
  | jump a => cases ht; exact ⟨_, rfl, h.setPc _⟩
  | call a => exact h.execCall hir hfpc ht
  | skipEqImm x kk =>
    rw [exec_skipEqImm] at ht ⊢
    cases ht
    exact ⟨_, rfl, by rw [h.readReg_eq, h.pc]; exact h.setPc _⟩
  | skipNeqImm x kk =>
    rw [exec_skipNeqImm] at ht ⊢
    cases ht
    exact ⟨_, rfl, by rw [h.readReg_eq, h.pc]; exact h.setPc _⟩
  | skipEqReg x y =>
    rw [exec_skipEqReg] at ht ⊢
    cases ht
    exact ⟨_, rfl, by rw [h.readReg_eq, h.readReg_eq, h.pc]; exact h.setPc _⟩
  | loadImm x kk => cases ht; exact ⟨_, rfl, h.writeReg x _⟩
  | addImm x _ | loadReg x _ | orReg x _ | andReg x _ | xorReg x _ =>
    cases ht
    exact ⟨_, rfl, by simp only [h.regOperand_eq]; exact h.writeReg x _⟩
  | addReg x y =>
    cases ht
    exact ⟨_, rfl, by simp only [h.regOperand_eq]; exact (h.writeReg x _).writeReg 0xF _⟩

theorem Indistinguishable.step {t : State} (ht : step s = .next t) :
    ∃ t', step s' = .next t' ∧ Indistinguishable t t' := by
  obtain ⟨hr, ⟨hp, rfl⟩ | ⟨hp, e, he, rfl⟩ | ⟨hp, i, hi, hexec⟩⟩ := step_cases ht
  · have hr' : s'.runState = .running := h.runState.trans hr
    refine ⟨_, step_of_out_of_range hr' (h.pc ▸ hp), ?_⟩
    rw [h.pc]
    exact h.raise _ _ _
  · have hf' : Fetches (fetchWord s) s' := fetches_iff.mpr ⟨h.runState.trans hr, h.pc ▸ hp, h.fetchWord_eq⟩
    refine ⟨_, hf'.step_of_decodeWord_error he, ?_⟩
    rw [h.pc]
    exact h.fetchAndAdvance.raise _ _ _
  · have hf' : Fetches (fetchWord s) s' := fetches_iff.mpr ⟨h.runState.trans hr, h.pc ▸ hp, h.fetchWord_eq⟩
    rw [hf'.step_of_decodeWord_ok hi]
    exact h.fetchAndAdvance.exec h.fetchWord_eq h.pc hexec

theorem Indistinguishable.inIdle {t u u' : State} {r : HostReply} (hu : Indistinguishable u u')
    (ht : inIdle s u = .next (t, r)) : ∃ t', inIdle s' u' = .next (t', r) ∧ Indistinguishable t t' := by
  by_cases hidle : s.runState = .idle
  · rw [inIdle_of_idle hidle] at ht
    cases ht
    exact ⟨_, inIdle_of_idle (h.runState.trans hidle) _, hu⟩
  · rw [inIdle_of_ne_idle hidle] at ht
    cases ht

theorem Indistinguishable.startRun : Indistinguishable (startRun s) (startRun s') := by
  rw [Machine.startRun, Machine.startRun, h.runState]
  split
  · exact h.setRunState _
  · exact h

theorem Indistinguishable.probeReg {t : State} {r : HostReply} {i : RegIdx} (ht : probeReg i s = .next (t, r)) :
    ∃ t', probeReg i s' = .next (t', r) ∧ Indistinguishable t t' := by
  rw [Machine.probeReg] at ht ⊢
  rw [h.runState, h.readReg_eq]
  split at ht
  · cases ht
  · rename_i hexposed
    cases ht
    exact ⟨_, if_neg hexposed, h⟩

theorem Indistinguishable.hostOp {t : State} {r : HostReply} {op : HostOp} (ht : hostOp op s = .next (t, r)) :
    ∃ t', hostOp op s' = .next (t', r) ∧ Indistinguishable t t' := by
  cases op with
  | construct image entry => cases ht; exact ⟨_, rfl, .refl _⟩
  | writeMem a b => exact h.inIdle (h.writeMem a b) ht
  | writeReg i b => exact h.inIdle (h.writeReg i b) ht
  | run => cases ht; exact ⟨_, rfl, h.startRun⟩
  | readReg i => exact h.probeReg ht
  | readStatus =>
    cases ht
    refine ⟨s', ?_, h⟩
    rw [Machine.hostOp, h.runState, h.fault]

end

/-- Settles O29: the step and every host operation are simulations for indistinguishability. -/
theorem deadStackAndLatchesAreUnobservable : Obligations.DeadStackAndLatchesAreUnobservable :=
  ⟨fun _ _ _ h => h.step, fun _ _ _ _ _ h => h.hostOp⟩

end Sys2Proof.Machine
end

section
/-! SUPPORT. The run loop (40_step_cycle.md R88, R89): its equations, that it completes, that an ended run stays ended, and
what it keeps. -/

namespace Sys2Proof.Machine

/-! ## The run loop -/

theorem runLoop_of_step {s t : State} (h : step s = .next t) (n : Nat) : runLoop (n + 1) s = runLoop n t := by
  rw [runLoop, if_pos (running_of_step h), h]

theorem runLoop_of_ne_running {s : State} (h : s.runState ≠ .running) (n : Nat) : runLoop n s = .next s := by
  cases n with
  | zero => rfl
  | succ n => rw [runLoop, if_neg h]

/-- A run loop that answers has answered the state itself or gone on from the state of a step. -/
theorem runLoop_succ_cases {n : Nat} {s t : State} (h : runLoop (n + 1) s = .next t) :
    (s.runState ≠ .running ∧ t = s) ∨ (∃ u, step s = .next u ∧ runLoop n u = .next t) := by
  by_cases hr : s.runState = .running
  · rw [runLoop, if_pos hr] at h
    cases hstep : step s with
    | next u => rw [hstep] at h; exact .inr ⟨u, rfl, h⟩
    | fault r => rw [hstep] at h; cases h
    | refused r => rw [hstep] at h; cases h
  · rw [runLoop_of_ne_running hr] at h
    exact .inl ⟨hr, (Host.Outcome.next.inj h).symm⟩

theorem ne_running_of_runEnded {s : State} (h : RunEnded s) : s.runState ≠ .running := by
  obtain h | h := h <;> simp [h]

/-- A step leaves RUNNING or an ended run, never IDLE. -/
theorem running_or_runEnded_of_step {s t : State} (hs : SpInRange s) (h : step s = .next t) :
    t.runState = .running ∨ RunEnded t := by
  obtain ⟨u, hu, -, -, hrunning⟩ := stepOutcomeIsOneOfThree s (running_of_step h) hs
  obtain rfl := Host.Outcome.next.inj (h.symm.trans hu)
  by_contra hnot
  rw [not_or, RunEnded, not_or] at hnot
  exact hnot.1 (hrunning.mpr hnot.2)

/-- With sp in range the loop answers, whatever the fuel. -/
theorem runLoop_total (n : Nat) {s : State} (hs : SpInRange s) (hrun : s.runState = .running ∨ RunEnded s) :
    ∃ t, runLoop n s = .next t ∧ (t.runState = .running ∨ RunEnded t) := by
  induction n generalizing s with
  | zero => exact ⟨s, rfl, hrun⟩
  | succ n ih =>
    obtain hr | hended := hrun
    · obtain ⟨t, ht, -⟩ := stepOutcomeIsOneOfThree s hr hs
      rw [runLoop_of_step ht]
      exact ih (step_spInRange hs ht) (running_or_runEnded_of_step hs ht)
    · exact ⟨s, runLoop_of_ne_running (ne_running_of_runEnded hended) _, .inr hended⟩

/-- More fuel does not change an ended answer. -/
theorem runLoop_add (n m : Nat) {s t : State} (h : runLoop n s = .next t) (ht : RunEnded t) :
    runLoop (n + m) s = .next t := by
  induction n generalizing s with
  | zero =>
    obtain rfl := Host.Outcome.next.inj h
    exact runLoop_of_ne_running (ne_running_of_runEnded ht) _
  | succ n ih =>
    obtain ⟨hr, rfl⟩ | ⟨u, hu, hloop⟩ := runLoop_succ_cases h
    · exact runLoop_of_ne_running hr _
    · rw [Nat.succ_add, runLoop_of_step hu]
      exact ih hloop

/-- Settles O30: the equations of the loop, its completion by the outcomes of a step, and its end by induction on the fuel. -/
theorem runLoopRunsToEnd : Obligations.RunLoopRunsToEnd :=
  ⟨fun _ => rfl, fun n _ _ _ h => runLoop_of_step h n, fun n _ h => runLoop_of_ne_running h n,
    fun n _ hr hs => runLoop_total n hs (.inl hr), fun n m _ _ h ht => runLoop_add n m h ht⟩

/-! ## Memory -/

theorem step_mem {s t : State} (h : step s = .next t) : t.mem = s.mem := by
  obtain ⟨-, ⟨-, rfl⟩ | ⟨-, e, -, rfl⟩ | ⟨-, i, -, hexec⟩⟩ := step_cases h
  · rfl
  · rfl
  · exact (exec_mem hexec).trans (fetchAndAdvance_mem s)

theorem runLoop_mem {n : Nat} {s t : State} (h : runLoop n s = .next t) : t.mem = s.mem := by
  induction n generalizing s with
  | zero => rw [Host.Outcome.next.inj h]
  | succ n ih =>
    obtain ⟨-, rfl⟩ | ⟨u, hu, hloop⟩ := runLoop_succ_cases h
    · rfl
    · exact (ih hloop).trans (step_mem hu)

/-- Settles O24: the handlers, the step and, by induction on the fuel, the loop keep memory; the host's frames do the rest. -/
theorem memoryWrittenOnlyByHost : Obligations.MemoryWrittenOnlyByHost := by
  refine ⟨fun _ _ _ => exec_mem, fun _ _ => step_mem, fun _ _ _ => runLoop_mem, fun op s t r h hchanged => ?_⟩
  obtain ⟨image, entry, hop, -⟩ | ⟨hidle, a, b, hop, -⟩ | ⟨-, i, b, -, rfl⟩ | ⟨-, -, rfl⟩ | rfl := hostOp_cases h
  · exact .inl ⟨image, entry, hop⟩
  · exact .inr ⟨hidle, a, b, hop⟩
  all_goals exact absurd rfl hchanged

/-! ## A JUMP to itself -/

/-- What a state fetches depends on nothing an observer cannot see. -/
theorem Fetches.of_indistinguishable {w : Word} {s t : State} (hf : Fetches w s) (h : Indistinguishable s t) :
    Fetches w t := by
  obtain ⟨hr, hp, hw⟩ := fetches_iff.mp hf
  exact fetches_iff.mpr ⟨h.runState.trans hr, h.pc ▸ hp, h.fetchWord_eq.trans hw⟩

/-- A step of a JUMP to its own address changes the latches alone. -/
theorem step_jump_to_self {s : State} {a : Addr} (hf : Fetches (0x1#4 ++ a) s) (hpc : s.pc.toNat = a.toNat) :
    ∃ t, step s = .next t ∧ Indistinguishable s t := by
  refine ⟨_, (hf.step_of_decodeWord_ok (decodeWord_jump a)).trans (exec_jump a _), rfl, ?_, rfl, rfl, rfl, rfl, rfl⟩
  exact BitVec.eq_of_toNat_eq ((toNat_addrOperand a).trans hpc.symm)

/-- Settles O31: the state after each step again fetches the same JUMP at the same address. -/
theorem jumpToItselfRunsForever : Obligations.JumpToItselfRunsForever := by
  intro s a hf hpc n
  induction n generalizing s with
  | zero => exact ⟨s, rfl, .refl s⟩
  | succ n ih =>
    obtain ⟨u, hu, hsu⟩ := step_jump_to_self hf hpc
    obtain ⟨t, ht, hut⟩ := ih u (hf.of_indistinguishable hsu) (by rw [hsu.pc, hpc])
    exact ⟨t, (runLoop_of_step hu n).trans ht, hsu.trans hut⟩

end Sys2Proof.Machine
end
